-- ==== Sys2Proof/Word.lean ====
section
/-! DEFINITION. The byte and the widths of the fields that the instruction stream carries
(00_scope.md R5, R6). -/

namespace Sys2Proof

/-- A byte: 8 bits, a value in `0..255` (00_scope.md R6). -/
abbrev Byte := BitVec 8

/-- A data address field of the instruction stream: `AW` = 32 bits (00_scope.md R5). -/
abbrev DataAddr := BitVec 32

/-- A jump target field: `JT` = 8 bytes (00_scope.md R5, 92_eei_decisions.md D2). -/
abbrev Target := BitVec 64

/-- The holder of an immediate: the widest Pod has 8 bytes. A narrower immediate uses the low
bytes only, which `Instr.wellFormed` demands (30_encoding.md R64). -/
abbrev Immediate := BitVec 64

end Sys2Proof
end

