-- ==== Sys2Proof/Syntax.lean ====
section
/-! DEFINITION. The instruction set as syntax: the six Pods and the sixteen instruction forms, one
constructor for each row of spec/opcode_table.json (00_scope.md R2). -/

namespace Sys2Proof

/-- A Pod, the type of an instruction's operands (30_encoding.md R54). -/
inductive Pod where
  | u8 | u16 | u32 | u64 | f32 | f64
deriving DecidableEq, Repr

/-- An instruction form with its operands. `dst`, `src` and `addr` are Memory Region offsets
(30_encoding.md R65), `imm` the immediate (R64), `target` a Program offset (R66). -/
inductive Instr where
  /-- `Move.<Pod> [dst], #imm` (41_alu.md R110). -/
  | moveImm (p : Pod) (dst : DataAddr) (imm : Immediate)
  /-- `Move.<Pod> [dst], [src]` (41_alu.md R111). -/
  | moveAbs (p : Pod) (dst src : DataAddr)
  /-- `Add.<Pod> [dst], #imm` (41_alu.md R112). -/
  | addImm (p : Pod) (dst : DataAddr) (imm : Immediate)
  /-- `Add.<Pod> [dst], [src]` (41_alu.md R113). -/
  | addAbs (p : Pod) (dst src : DataAddr)
  /-- `Subtract.<Pod> [dst], #imm` (41_alu.md R114). -/
  | subtractImm (p : Pod) (dst : DataAddr) (imm : Immediate)
  /-- `Subtract.<Pod> [dst], [src]` (41_alu.md R115). -/
  | subtractAbs (p : Pod) (dst src : DataAddr)
  /-- `Multiply.<Pod> [dst], #imm` (41_alu.md R116). -/
  | multiplyImm (p : Pod) (dst : DataAddr) (imm : Immediate)
  /-- `Multiply.<Pod> [dst], [src]` (41_alu.md R117). -/
  | multiplyAbs (p : Pod) (dst src : DataAddr)
  /-- `Divide.<Pod> [dst], #imm` (41_alu.md R118). -/
  | divideImm (p : Pod) (dst : DataAddr) (imm : Immediate)
  /-- `Divide.<Pod> [dst], [src]` (41_alu.md R119). -/
  | divideAbs (p : Pod) (dst src : DataAddr)
  /-- `Compare.<Pod> [dst], #imm` (42_compare_branch.md R131). -/
  | compareImm (p : Pod) (dst : DataAddr) (imm : Immediate)
  /-- `Compare.<Pod> [dst], [src]` (42_compare_branch.md R132). -/
  | compareAbs (p : Pod) (dst src : DataAddr)
  /-- `Jump target` (42_compare_branch.md R133). -/
  | jump (target : Target)
  /-- `JumpIfEqual target` (42_compare_branch.md R134). -/
  | jumpIfEqual (target : Target)
  /-- `JumpIfLessThan target` (42_compare_branch.md R135). -/
  | jumpIfLessThan (target : Target)
  /-- `Print.<Pod> [addr]` (43_print.md R150). Metadata bit 4 is ignored and has no place here
  (30_encoding.md R58). -/
  | print (p : Pod) (addr : DataAddr)
deriving DecidableEq, Repr

end Sys2Proof
end

