-- ==== Sys2Proof/Machine/Pods.lean ====
section
/-! DEFINITION. The Pod table of 30_encoding.md R54: code, byte width and value type of each Pod. -/

namespace Sys2Proof

/-- An IEEE 754 binary interchange format, by its field widths. -/
structure FloatFormat where
  /-- Width of the exponent field. -/
  expBits : Nat
  /-- Width of the fraction field. -/
  fracBits : Nat
deriving DecidableEq, Repr

/-- IEEE 754 binary32, the value type of F32. -/
def binary32 : FloatFormat := ⟨8, 23⟩

/-- IEEE 754 binary64, the value type of F64. -/
def binary64 : FloatFormat := ⟨11, 52⟩

/-- The value type of a Pod: an unsigned integer of `n` bits, or a float format. -/
inductive ValueType where
  | unsigned (n : Nat)
  | float (fmt : FloatFormat)
deriving DecidableEq, Repr

/-- `W(p)`, the byte width of operands, immediates and memory accesses (30_encoding.md R54). -/
def Pod.width : Pod → Nat
  | .u8 => 1
  | .u16 => 2
  | .u32 => 4
  | .u64 => 8
  | .f32 => 4
  | .f64 => 8

/-- `T(p)`, the value type (30_encoding.md R54). -/
def Pod.valueType : Pod → ValueType
  | .u8 => .unsigned 8
  | .u16 => .unsigned 16
  | .u32 => .unsigned 32
  | .u64 => .unsigned 64
  | .f32 => .float binary32
  | .f64 => .float binary64

/-- The Pod code, Metadata bits 7:5 (30_encoding.md R54). -/
def Pod.code : Pod → BitVec 3
  | .u8 => 0
  | .u16 => 1
  | .u32 => 2
  | .u64 => 3
  | .f32 => 4
  | .f64 => 5

/-- The Pod a code names; 6 and 7 name none (30_encoding.md R54, R55). -/
def Pod.ofCode (c : BitVec 3) : Option Pod :=
  match c.toNat with
  | 0 => some .u8
  | 1 => some .u16
  | 2 => some .u32
  | 3 => some .u64
  | 4 => some .f32
  | 5 => some .f64
  | _ => none

end Sys2Proof
end

