-- ==== Sys2Proof/Machine/Float.lean ====
section
/-! DEFINITION. IEEE 754 binary arithmetic on bit patterns (41_alu.md R103, R104; 42_compare_branch.md
R130). A pattern is a natural below `2 ^ (1 + expBits + fracBits)`: sign, exponent field, fraction
field. Every finite value is a whole number of the format's least positive subnormal, its "units", so
an exact result is a fraction of whole numbers and is narrowed once, by `roundUnits`. -/

namespace Sys2Proof.Machine

/-- Width of a pattern without its sign bit. -/
def magnitudeBits (f : FloatFormat) : Nat := f.expBits + f.fracBits

/-- The magnitude (the pattern without its sign bit) of infinity: exponent field all ones, fraction
0. A larger magnitude is a NaN's. -/
def infMagnitude (f : FloatFormat) : Nat := (2 ^ f.expBits - 1) * 2 ^ f.fracBits

/-- The pattern without its sign bit. -/
def magnitude (f : FloatFormat) (x : Nat) : Nat := x % 2 ^ magnitudeBits f

/-- The sign bit: true for negative. -/
def signBit (f : FloatFormat) (x : Nat) : Bool := x / 2 ^ magnitudeBits f % 2 == 1

/-- The pattern with a given sign and magnitude. -/
def pattern (f : FloatFormat) (sign : Bool) (mag : Nat) : Nat :=
  (if sign then 2 ^ magnitudeBits f else 0) + mag

/-- The pattern holds a NaN. -/
def isNaN (f : FloatFormat) (x : Nat) : Bool := infMagnitude f < magnitude f x

/-- The pattern holds an infinity. -/
def isInf (f : FloatFormat) (x : Nat) : Bool := magnitude f x == infMagnitude f

/-- The pattern holds a zero of either sign. -/
def isZero (f : FloatFormat) (x : Nat) : Bool := magnitude f x == 0

/-- The value of a magnitude in units. Infinity's magnitude stands for the value one step beyond the
largest finite one, which is what rounding and ordering need. -/
def units (f : FloatFormat) (mag : Nat) : Nat :=
  let exponent := mag / 2 ^ f.fracBits
  let fraction := mag % 2 ^ f.fracBits
  if exponent = 0 then fraction else (2 ^ f.fracBits + fraction) * 2 ^ (exponent - 1)

/-- The value of a pattern in units, with its sign. -/
def signedUnits (f : FloatFormat) (x : Nat) : Int :=
  if signBit f x then -(units f (magnitude f x) : Int) else (units f (magnitude f x) : Int)

/-- The binary exponent below units: one unit is `2 ^ (-unitScale f)`. -/
def unitScale (f : FloatFormat) : Nat := 2 ^ (f.expBits - 1) - 2 + f.fracBits

/-- `n / d` rounded to a whole number, ties to even. -/
def divRoundEven (n d : Nat) : Nat :=
  if 2 * (n % d) < d then n / d
  else if d < 2 * (n % d) then n / d + 1
  else if n / d % 2 = 0 then n / d else n / d + 1

/-- The magnitude of `n / d` units rounded to the format, roundTiesToEven with subnormals kept
(41_alu.md R103); a value beyond the largest finite one by half a step or more gives infinity. `k`
is the exponent field less 1, and the sum carries into the exponent when the significand rounds up
to the next power of two. -/
def roundUnits (f : FloatFormat) (n d : Nat) : Nat :=
  let k := Nat.log2 (n / d) - f.fracBits
  min (k * 2 ^ f.fracBits + divRoundEven n (d * 2 ^ k)) (infMagnitude f)

/-- Addition (41_alu.md R103, R104). `none` says that IEEE 754 gives a NaN. -/
def floatAdd (f : FloatFormat) (a b : Nat) : Option Nat :=
  if isNaN f a || isNaN f b then none
  else if isInf f a then
    if isInf f b && signBit f a != signBit f b then none
    else some (pattern f (signBit f a) (infMagnitude f))
  else if isInf f b then some (pattern f (signBit f b) (infMagnitude f))
  else
    let sum := signedUnits f a + signedUnits f b
    if sum = 0 then some (pattern f (signBit f a && signBit f b) 0)
    else some (pattern f (sum < 0) (roundUnits f sum.natAbs 1))

/-- The pattern with its sign bit inverted. -/
def negate (f : FloatFormat) (x : Nat) : Nat := pattern f (!signBit f x) (magnitude f x)

/-- Subtraction is the addition of the negated right operand (IEEE 754; 41_alu.md R103, R104). -/
def floatSub (f : FloatFormat) (a b : Nat) : Option Nat := floatAdd f a (negate f b)

/-- Multiplication (41_alu.md R103, R104). `none` says that IEEE 754 gives a NaN. -/
def floatMul (f : FloatFormat) (a b : Nat) : Option Nat :=
  let sign := signBit f a != signBit f b
  if isNaN f a || isNaN f b then none
  else if isInf f a || isInf f b then
    if isZero f a || isZero f b then none else some (pattern f sign (infMagnitude f))
  else
    some (pattern f sign
      (roundUnits f (units f (magnitude f a) * units f (magnitude f b)) (2 ^ unitScale f)))

/-- Division (41_alu.md R103, R104). `none` says that IEEE 754 gives a NaN. -/
def floatDiv (f : FloatFormat) (a b : Nat) : Option Nat :=
  let sign := signBit f a != signBit f b
  if isNaN f a || isNaN f b then none
  else if isInf f a then
    if isInf f b then none else some (pattern f sign (infMagnitude f))
  else if isInf f b then some (pattern f sign 0)
  else if isZero f b then
    if isZero f a then none else some (pattern f sign (infMagnitude f))
  else
    some (pattern f sign
      (roundUnits f (units f (magnitude f a) * 2 ^ unitScale f) (units f (magnitude f b))))

/-- The NaN that raw bits stand for: their sign and fraction, with the fraction 0 (which would be an
infinity) read as 1. Every NaN of the format comes from some raw bits (41_alu.md R103, log 3). -/
def nanPattern (f : FloatFormat) (raw : BitVec 64) : Nat :=
  let fraction := raw.toNat % 2 ^ f.fracBits
  pattern f (raw.toNat / 2 ^ f.fracBits % 2 == 1)
    (infMagnitude f + (if fraction = 0 then 1 else fraction))

end Sys2Proof.Machine
end

