-- ==== Sys2Proof/Config.lean ====
section
/-! DEFINITION. The model's arguments and free values: what 00_scope.md R5 leaves as an argument of
the model. The opaque constants have no body, so no proof can learn a value of theirs. -/

namespace Sys2Proof.Config

/-- `NAN_RESULT` (00_scope.md R5, 41_alu.md R103): the raw bits of the `k`-th NaN that a float
operation draws. `Machine.nanPattern` turns them into a NaN of the format; every NaN of the format
comes from some raw bits. Free value, safe for one run. Log 3. -/
opaque nanDraw (k : Nat) : BitVec 64

/-- `PRINT_TEXT` for an F32 value's bit pattern (43_print.md R152): host text the spec leaves open.
Free value, safe. Log 6. -/
opaque textF32 (bits : BitVec 32) : String

/-- `PRINT_TEXT` for an F64 value's bit pattern (43_print.md R152): host text the spec leaves open.
Free value, safe. Log 6. -/
opaque textF64 (bits : BitVec 64) : String

/-- The Memory Region capacity `N` of `State.reset`. DESIGN CHOICE, unsafe (log 2): the spec makes `N`
an argument; this value lets every 32-bit address name a byte. Every other statement is about any
capacity. -/
def resetCapacity : Nat := 2 ^ 32

/-- The program `PROG` of `State.reset`. DESIGN CHOICE, unsafe (log 1): the spec makes `PROG` an
argument; no program is invented, so `P = 0`. -/
def resetProgram : List Byte := []

/-- `P` is below this bound (00_scope.md R5, 92_eei_decisions.md D15). -/
def programBound : Nat := 2 ^ 64

end Sys2Proof.Config
end

