-- ==== Sys2Proof/Machine/State.lean ====
section
/-! DEFINITION. The machine's state as plain data (10_state.md), the faults and refusals, and the
state after reset (10_state.md R25, 70_reset_and_hazards.md R231). -/

namespace Sys2Proof.Machine

/-- The value of the Comparison Register (10_state.md R15). -/
inductive CmpValue where
  | less | equal | greater | unset
deriving DecidableEq, Repr

/-- `status.state` (10_state.md R19); code 3 is never produced and has no constructor. -/
inductive RunState where
  | running | halted | faulted
deriving DecidableEq, Repr

/-- The five faults of 60_exceptions.md R200. The machine TAKES each one (R206): the step answers a
NEXT state with `status` = (Faulted, the fault), so no step answers `Host.Outcome.fault`. Safe: the
faults are the spec's own, none is added. -/
inductive Fault where
  /-- Raised by a fetch that would pass the end of the program, and by a taken jump whose target is
  beyond it (R201, 42_compare_branch.md R136). -/
  | unexpectedEndOfProgram
  /-- Raised by the decode of a Metadata byte with Pod 6 or 7 or a reserved bit set (R202). -/
  | invalidMetadata
  /-- Raised by the decode of an opcode byte `0x0A` to `0xFF` (R203). -/
  | invalidOpcode
  /-- Raised by a Memory Region access that would exceed the capacity (R204). -/
  | memoryFault
  /-- Raised by Divide of an integer Pod by zero (R205). -/
  | arithmeticFault
deriving DecidableEq, Repr

/-- Why the model has no meaning for an instruction. Safe: the model stops. No instruction is left
without a meaning, so nothing raises it. -/
inductive Refusal where
  /-- An arm of `exec` whose instruction has no meaning yet. Safe. -/
  | notModelled (mnemonic : String)
deriving DecidableEq, Repr

/-- The status register (10_state.md R19): `fault` is `none` for code 0. -/
structure Status where
  /-- Running, Halted or Faulted. -/
  state : RunState
  /-- The fault kind, present if and only if `state` is Faulted. -/
  fault : Option Fault
deriving DecidableEq, Repr

/-- A Print event: a Pod and the `W(pod)` bytes read (10_state.md R22, 43_print.md R151). -/
structure PrintEvent where
  /-- The Pod of the Print. -/
  pod : Pod
  /-- The bytes read from memory, in address order. -/
  bytes : List Byte
deriving DecidableEq, Repr

/-- The Memory Region's contents: the nonzero bytes, addresses strictly rising. An unlisted address
reads as `0x00`, the reset contents (10_state.md R20, R25). -/
abbrev Memory := List Host.Cell

/-- The state of one CORE instance (10_state.md R10), with the configuration it was constructed with
(00_scope.md R5) and the model's draw counter. -/
structure State where
  /-- The instruction pointer, an offset into `prog` (10_state.md R12). A natural: its arithmetic
  never wraps (00_scope.md R6). -/
  ip : Nat
  /-- The Comparison Register (10_state.md R15). -/
  cmp : CmpValue
  /-- The Memory Region (10_state.md R20). -/
  mem : Memory
  /-- The run status (10_state.md R19). -/
  status : Status
  /-- The Print events, oldest first (10_state.md R22). -/
  out : List PrintEvent
  /-- `PROG`, immutable (10_state.md R21). `P` is its length. -/
  prog : List Byte
  /-- `N`, the Memory Region's capacity in bytes (00_scope.md R5). -/
  capacity : Nat
  /-- The model's own field: how many NaN results have been drawn (log 3). -/
  nanDraws : Nat
deriving DecidableEq, Repr

/-- Reset is the construction of an instance from `PROG` and `N` (70_reset_and_hazards.md R230,
R231). -/
def State.resetWith (prog : List Byte) (capacity : Nat) : State where
  ip := 0
  cmp := .unset
  mem := []
  status := ⟨.running, none⟩
  out := []
  prog := prog
  capacity := capacity
  nanDraws := 0

/-- The machine right after reset (70_reset_and_hazards.md R231), for the program and the capacity
that Config names (log 1, log 2). -/
def State.reset : State := State.resetWith Config.resetProgram Config.resetCapacity

end Sys2Proof.Machine
end

