-- ==== Sys2Proof/Machine/Alu.lean ====
section
/-! DEFINITION. The typed ALU: one function for each arithmetic opcode and Pod (41_alu.md R100). -/

namespace Sys2Proof.Machine

/-- What the ALU answers for two operand patterns. -/
inductive AluResult where
  /-- The result's bit pattern. -/
  | value (bits : Nat)
  /-- A NaN of the format, left free (41_alu.md R103). -/
  | nan (fmt : FloatFormat)
  /-- The operation raises a fault. -/
  | fault (f : Fault)
deriving DecidableEq, Repr

/-- `Add_n` (41_alu.md R101). -/
def addN (n a b : Nat) : Nat := (a + b) % 2 ^ n

/-- `Sub_n`: the mathematical difference, reduced into `0 .. 2^n - 1` (41_alu.md R101). -/
def subN (n a b : Nat) : Nat := (((a : Int) - (b : Int)) % ((2 ^ n : Nat) : Int)).toNat

/-- `Mul_n`: the low `n` bits of the product (41_alu.md R101). -/
def mulN (n a b : Nat) : Nat := (a * b) % 2 ^ n

/-- A float operation's result, `none` being a NaN. -/
def floatResult (f : FloatFormat) : Option Nat → AluResult
  | some bits => .value bits
  | none => .nan f

/-- Add (41_alu.md R112, R113). -/
def aluAdd (p : Pod) (a b : Nat) : AluResult :=
  match p.valueType with
  | .unsigned n => .value (addN n a b)
  | .float f => floatResult f (floatAdd f a b)

/-- Subtract: `mem[dst]` minus the operand (41_alu.md R114, R115). -/
def aluSub (p : Pod) (a b : Nat) : AluResult :=
  match p.valueType with
  | .unsigned n => .value (subN n a b)
  | .float f => floatResult f (floatSub f a b)

/-- Multiply (41_alu.md R116, R117). -/
def aluMul (p : Pod) (a b : Nat) : AluResult :=
  match p.valueType with
  | .unsigned n => .value (mulN n a b)
  | .float f => floatResult f (floatMul f a b)

/-- Divide: truncating and unsigned, a zero divisor faults for the integer Pods only (41_alu.md R102,
R118, R119). -/
def aluDiv (p : Pod) (a b : Nat) : AluResult :=
  match p.valueType with
  | .unsigned _ => if b = 0 then .fault .arithmeticFault else .value (a / b)
  | .float f => floatResult f (floatDiv f a b)

end Sys2Proof.Machine
end

