-- ==== Sys2Proof/Machine/Flags.lean ====
section
/-! DEFINITION. The only condition the machine computes, the ordering of 42_compare_branch.md R130, and
the hardware encodings of the Comparison Register and the status register. -/

namespace Sys2Proof.Machine

/-- The order of two whole numbers as a Comparison Register value. -/
def compareValues (a b : Int) : CmpValue :=
  if a < b then .less else if a = b then .equal else .greater

/-- `partial_order_p(a, b)` on bit patterns (42_compare_branch.md R130): unsigned for the integer Pods;
for the float Pods unordered if either is a NaN, else by value, `+0` and `-0` equal. -/
def partialOrder (p : Pod) (a b : Nat) : CmpValue :=
  match p.valueType with
  | .unsigned _ => compareValues a b
  | .float f =>
    if isNaN f a || isNaN f b then .unset else compareValues (signedUnits f a) (signedUnits f b)

/-- The encoding of `cmp` (10_state.md R18). -/
def cmpCode : CmpValue → BitVec 2
  | .unset => 0
  | .less => 1
  | .equal => 2
  | .greater => 3

/-- The encoding of `status.state` (10_state.md R19). -/
def stateCode : RunState → BitVec 2
  | .running => 0
  | .halted => 1
  | .faulted => 2

/-- The encoding of `status.fault` (10_state.md R19, 60_exceptions.md R200). -/
def faultCode : Option Fault → BitVec 3
  | none => 0
  | some .unexpectedEndOfProgram => 1
  | some .invalidMetadata => 2
  | some .invalidOpcode => 3
  | some .memoryFault => 4
  | some .arithmeticFault => 5

end Sys2Proof.Machine
end

