-- ==== Sys2Proof/Machine/Bytes.lean ====
section
/-! DEFINITION. Byte sequences: the little-endian reading and writing of 00_scope.md R6 and
20_memory.md R35, and taking a prefix of a byte sequence. -/

namespace Sys2Proof

/-- `le(B)`: the unsigned integer whose little-endian bytes are `B` (00_scope.md R6). -/
def le : List Byte → Nat
  | [] => 0
  | b :: bs => b.toNat + 256 * le bs

/-- `le_k(v)`: the `k`-byte little-endian sequence of `v mod 256^k` (00_scope.md R6). -/
def leBytes : Nat → Nat → List Byte
  | 0, _ => []
  | k + 1, v => BitVec.ofNat 8 v :: leBytes k (v / 256)

/-- The first `n` bytes of a sequence and the rest, or `none` if there are fewer than `n`: all or
nothing, as `Fetch(n)` is (40_execution_cycle.md R82). -/
def takeBytes : Nat → List Byte → Option (List Byte × List Byte)
  | 0, bs => some ([], bs)
  | _ + 1, [] => none
  | n + 1, b :: bs =>
    match takeBytes n bs with
    | none => none
    | some (front, rest) => some (b :: front, rest)

end Sys2Proof
end

