-- ==== Sys2Proof/Machine/Ops.lean ====
section
/-! DEFINITION. The named operations over memory, the status register and the output port: the memory
port of 20_memory.md, fault entry and the halt check of 60_exceptions.md R206 and
40_execution_cycle.md R81, and the Print event of 43_print.md R151. -/

namespace Sys2Proof.Machine

/-- The canonical form of a memory: addresses strictly rising, no listed byte `0x00`. -/
def Memory.wf : Memory → Bool
  | [] => true
  | (a, v) :: rest => v != 0 && rest.all (fun c => a < c.1) && Memory.wf rest

/-- One byte of memory; an unlisted one is `0x00` (20_memory.md R42, R233). -/
def readByte : Memory → Nat → Byte
  | [], _ => 0
  | (b, v) :: rest, a => if b = a then v else readByte rest a

/-- Set one byte of memory, keeping the canonical form. -/
def writeByte : Memory → Nat → Byte → Memory
  | [], a, v => if v = 0 then [] else [(a, v)]
  | (b, w) :: rest, a, v =>
    if a < b then (if v = 0 then (b, w) :: rest else (a, v) :: (b, w) :: rest)
    else if a = b then (if v = 0 then rest else (a, v) :: rest)
    else (b, w) :: writeByte rest a v

/-- The `k` bytes from offset `o`, in address order (20_memory.md R33). -/
def readBytes (m : Memory) (o : Nat) : Nat → List Byte
  | 0 => []
  | k + 1 => readByte m o :: readBytes m (o + 1) k

/-- Set the bytes from offset `o`, in address order (20_memory.md R34). -/
def writeBytes (m : Memory) (o : Nat) : List Byte → Memory
  | [] => m
  | b :: bs => writeBytes (writeByte m o b) (o + 1) bs

/-- The bound check: an access of `k` bytes at `o` is admitted if and only if `o + k <= N`
(20_memory.md R32). -/
def admitted (s : State) (o k : Nat) : Bool := o + k ≤ s.capacity

/-- `MemRead(o, k)` (20_memory.md R32, R33). -/
def memRead (s : State) (o k : Nat) : Except Fault (List Byte) :=
  if admitted s o k then .ok (readBytes s.mem o k) else .error .memoryFault

/-- `MemWrite(o, k, B)` with `k` the length of `B` (20_memory.md R32, R34). -/
def memWrite (s : State) (o : Nat) (bytes : List Byte) : Except Fault State :=
  if admitted s o bytes.length then .ok { s with mem := writeBytes s.mem o bytes }
  else .error .memoryFault

/-- `ip <- ip0 + n` (10_state.md R13), the state's `ip` being `ip0`. -/
def advance (s : State) (n : Nat) : State := { s with ip := s.ip + n }

/-- `Emit(pod, B)`: append a Print event (43_print.md R151). -/
def emit (s : State) (p : Pod) (bytes : List Byte) : State := { s with out := s.out ++ [⟨p, bytes⟩] }

/-- Fault entry, the CORE's only trap mechanism (60_exceptions.md R206): the status becomes (Faulted,
`f`); `ip` stays at `ip0`, and `mem`, `cmp` and `out` keep their values. There is no handler, nothing
is saved, and there is no return from a fault (R210). -/
def raiseFault (s : State) (f : Fault) : State := { s with status := ⟨.faulted, some f⟩ }

/-- The halt check's effect: `status.state` becomes Halted and nothing else changes
(40_execution_cycle.md R81). -/
def halt (s : State) : State := { s with status := { s.status with state := .halted } }

/-- The step's outcome for an instruction begun in `s`: commit (40_execution_cycle.md R87) or fault
entry (R88). A fault is taken from `s`, so none of the instruction's effects remains. -/
def conclude (s : State) : Except Fault State → Host.Outcome State Fault Refusal
  | .ok t => .next t
  | .error f => .next (raiseFault s f)

end Sys2Proof.Machine
end

