-- ==== Sys2Proof/Machine/Operands.lean ====
section
/-! DEFINITION. The operand multiplexer (40_execution_cycle.md R84, R85) and the shared bodies of the
typed opcodes over it. In every definition the state's `ip` is `ip0`, and the checks run in the order
of 40_execution_cycle.md R89. -/

namespace Sys2Proof.Machine

/-- The right-hand operand's source, chosen by Metadata bit 4 (30_encoding.md R57). -/
inductive Operand where
  /-- Immediate shape: the value is in the instruction stream. -/
  | imm (v : Immediate)
  /-- Absolute shape: the value is in memory at `src`. -/
  | abs (src : DataAddr)
deriving DecidableEq, Repr

/-- The bytes `Bb` of the right-hand operand: the `W(p)` immediate bytes, or the read at `src`
(40_execution_cycle.md R84). -/
def operandBytes (s : State) (p : Pod) : Operand → Except Fault (List Byte)
  | .imm v => .ok (leBytes p.width v.toNat)
  | .abs src => memRead s src.toNat p.width

/-- The length of a typed instruction with this operand (30_encoding.md R63). -/
def typedLength (p : Pod) : Operand → Nat
  | .imm _ => 6 + p.width
  | .abs _ => 10

/-- The bytes an ALU result stores in a Pod's width; a NaN takes the next free draw (41_alu.md R103,
log 3). -/
def resultBytes (s : State) (p : Pod) : AluResult → Except Fault (List Byte)
  | .value bits => .ok (leBytes p.width bits)
  | .nan f => .ok (leBytes p.width (nanPattern f (Config.nanDraw s.nanDraws)))
  | .fault f => .error f

/-- The draw counter moves on when a NaN was drawn (log 3). -/
def countDraw (s : State) : AluResult → State
  | .value _ => s
  | .nan _ => { s with nanDraws := s.nanDraws + 1 }
  | .fault _ => s

/-- Move: the operand's bytes go to `dst` unchanged; only the write is checked against the capacity
there (41_alu.md R110, R111). -/
def moveResult (s : State) (p : Pod) (dst : DataAddr) (x : Operand) : Except Fault State :=
  match operandBytes s p x with
  | .error f => .error f
  | .ok bb =>
    match memWrite s dst.toNat bb with
    | .error f => .error f
    | .ok t => .ok (advance t (typedLength p x))

/-- Add, Subtract, Multiply, Divide: the read at `dst`, the ALU function, the write at `dst`
(41_alu.md R112 to R119). -/
def arithResult (alu : Pod → Nat → Nat → AluResult) (s : State) (p : Pod) (dst : DataAddr)
    (x : Operand) : Except Fault State :=
  match operandBytes s p x with
  | .error f => .error f
  | .ok bb =>
    match memRead s dst.toNat p.width with
    | .error f => .error f
    | .ok ba =>
      match resultBytes s p (alu p (le ba) (le bb)) with
      | .error f => .error f
      | .ok r =>
        match memWrite s dst.toNat r with
        | .error f => .error f
        | .ok t => .ok (advance (countDraw t (alu p (le ba) (le bb))) (typedLength p x))

/-- Compare: `dst` is the left operand, read and not written (42_compare_branch.md R131, R132). -/
def compareResult (s : State) (p : Pod) (dst : DataAddr) (x : Operand) : Except Fault State :=
  match operandBytes s p x with
  | .error f => .error f
  | .ok bb =>
    match memRead s dst.toNat p.width with
    | .error f => .error f
    | .ok ba => .ok (advance { s with cmp := partialOrder p (le ba) (le bb) } (typedLength p x))

/-- A jump, taken or not: a taken one needs `target <= P`, one not taken does not check it
(42_compare_branch.md R136). -/
def jumpResult (s : State) (taken : Bool) (target : Target) : Except Fault State :=
  if taken then
    if target.toNat ≤ s.prog.length then .ok { s with ip := target.toNat }
    else .error .unexpectedEndOfProgram
  else .ok (advance s 9)

/-- Print: the read at `addr` and the event (43_print.md R150, R151). -/
def printResult (s : State) (p : Pod) (addr : DataAddr) : Except Fault State :=
  match memRead s addr.toNat p.width with
  | .error f => .error f
  | .ok bb => .ok (advance (emit s p bb) 6)

end Sys2Proof.Machine
end

