-- ==== Sys2Proof/Machine/Arith.lean ====
section
/-! DEFINITION. The meanings of Add, Subtract, Multiply and Divide (41_alu.md sections 3 to 6). -/

namespace Sys2Proof.Machine

/-- `Add.<Pod> [dst], #imm` (41_alu.md R112). -/
def execAddImm (p : Pod) (dst : DataAddr) (imm : Immediate) (s : State) :
    Host.Outcome State Fault Refusal :=
  conclude s (arithResult aluAdd s p dst (.imm imm))

/-- `Add.<Pod> [dst], [src]` (41_alu.md R113). -/
def execAddAbs (p : Pod) (dst src : DataAddr) (s : State) : Host.Outcome State Fault Refusal :=
  conclude s (arithResult aluAdd s p dst (.abs src))

/-- `Subtract.<Pod> [dst], #imm` (41_alu.md R114). -/
def execSubtractImm (p : Pod) (dst : DataAddr) (imm : Immediate) (s : State) :
    Host.Outcome State Fault Refusal :=
  conclude s (arithResult aluSub s p dst (.imm imm))

/-- `Subtract.<Pod> [dst], [src]` (41_alu.md R115). -/
def execSubtractAbs (p : Pod) (dst src : DataAddr) (s : State) : Host.Outcome State Fault Refusal :=
  conclude s (arithResult aluSub s p dst (.abs src))

/-- `Multiply.<Pod> [dst], #imm` (41_alu.md R116). -/
def execMultiplyImm (p : Pod) (dst : DataAddr) (imm : Immediate) (s : State) :
    Host.Outcome State Fault Refusal :=
  conclude s (arithResult aluMul s p dst (.imm imm))

/-- `Multiply.<Pod> [dst], [src]` (41_alu.md R117). -/
def execMultiplyAbs (p : Pod) (dst src : DataAddr) (s : State) : Host.Outcome State Fault Refusal :=
  conclude s (arithResult aluMul s p dst (.abs src))

/-- `Divide.<Pod> [dst], #imm` (41_alu.md R118). -/
def execDivideImm (p : Pod) (dst : DataAddr) (imm : Immediate) (s : State) :
    Host.Outcome State Fault Refusal :=
  conclude s (arithResult aluDiv s p dst (.imm imm))

/-- `Divide.<Pod> [dst], [src]` (41_alu.md R119). -/
def execDivideAbs (p : Pod) (dst src : DataAddr) (s : State) : Host.Outcome State Fault Refusal :=
  conclude s (arithResult aluDiv s p dst (.abs src))

end Sys2Proof.Machine
end

