-- ==== Sys2Proof/Machine/CompareBranch.lean ====
section
/-! DEFINITION. The meanings of Compare and the jumps (42_compare_branch.md). -/

namespace Sys2Proof.Machine

/-- `Compare.<Pod> [dst], #imm` (42_compare_branch.md R131). -/
def execCompareImm (p : Pod) (dst : DataAddr) (imm : Immediate) (s : State) :
    Host.Outcome State Fault Refusal :=
  conclude s (compareResult s p dst (.imm imm))

/-- `Compare.<Pod> [dst], [src]` (42_compare_branch.md R132). -/
def execCompareAbs (p : Pod) (dst src : DataAddr) (s : State) : Host.Outcome State Fault Refusal :=
  conclude s (compareResult s p dst (.abs src))

/-- `Jump target` (42_compare_branch.md R133). -/
def execJump (target : Target) (s : State) : Host.Outcome State Fault Refusal :=
  conclude s (jumpResult s true target)

/-- `JumpIfEqual target` (42_compare_branch.md R134). -/
def execJumpIfEqual (target : Target) (s : State) : Host.Outcome State Fault Refusal :=
  conclude s (jumpResult s (s.cmp = .equal) target)

/-- `JumpIfLessThan target` (42_compare_branch.md R135). -/
def execJumpIfLessThan (target : Target) (s : State) : Host.Outcome State Fault Refusal :=
  conclude s (jumpResult s (s.cmp = .less) target)

end Sys2Proof.Machine
end

