-- ==== Sys2Proof/Machine/Move.lean ====
section
/-! DEFINITION. The meanings of Move (41_alu.md section 2). -/

namespace Sys2Proof.Machine

/-- `Move.<Pod> [dst], #imm` (41_alu.md R110). -/
def execMoveImm (p : Pod) (dst : DataAddr) (imm : Immediate) (s : State) :
    Host.Outcome State Fault Refusal :=
  conclude s (moveResult s p dst (.imm imm))

/-- `Move.<Pod> [dst], [src]` (41_alu.md R111). -/
def execMoveAbs (p : Pod) (dst src : DataAddr) (s : State) : Host.Outcome State Fault Refusal :=
  conclude s (moveResult s p dst (.abs src))

end Sys2Proof.Machine
end

