-- ==== Sys2Proof/Machine/Print.lean ====
section
/-! DEFINITION. The meaning of Print (43_print.md). -/

namespace Sys2Proof.Machine

/-- `Print.<Pod> [addr]` (43_print.md R150). -/
def execPrint (p : Pod) (addr : DataAddr) (s : State) : Host.Outcome State Fault Refusal :=
  conclude s (printResult s p addr)

end Sys2Proof.Machine
end

