-- ==== Sys2Proof/Machine/Dispatch.lean ====
section
/-! DEFINITION. The dispatch on the instruction: one arm for each constructor of Instr. -/

namespace Sys2Proof.Machine

def exec (i : Instr) (s : State) : Host.Outcome State Fault Refusal :=
  match i with
  | .moveImm p dst imm => Sys2Proof.Machine.execMoveImm p dst imm s
  | .moveAbs p dst src => Sys2Proof.Machine.execMoveAbs p dst src s
  | .addImm p dst imm => Sys2Proof.Machine.execAddImm p dst imm s
  | .addAbs p dst src => Sys2Proof.Machine.execAddAbs p dst src s
  | .subtractImm p dst imm => Sys2Proof.Machine.execSubtractImm p dst imm s
  | .subtractAbs p dst src => Sys2Proof.Machine.execSubtractAbs p dst src s
  | .multiplyImm p dst imm => Sys2Proof.Machine.execMultiplyImm p dst imm s
  | .multiplyAbs p dst src => Sys2Proof.Machine.execMultiplyAbs p dst src s
  | .divideImm p dst imm => Sys2Proof.Machine.execDivideImm p dst imm s
  | .divideAbs p dst src => Sys2Proof.Machine.execDivideAbs p dst src s
  | .compareImm p dst imm => Sys2Proof.Machine.execCompareImm p dst imm s
  | .compareAbs p dst src => Sys2Proof.Machine.execCompareAbs p dst src s
  | .jump target => Sys2Proof.Machine.execJump target s
  | .jumpIfEqual target => Sys2Proof.Machine.execJumpIfEqual target s
  | .jumpIfLessThan target => Sys2Proof.Machine.execJumpIfLessThan target s
  | .print p addr => Sys2Proof.Machine.execPrint p addr s

end Sys2Proof.Machine
end

