-- ==== Sys2Proof/WellFormed.lean ====
section
/-! DEFINITION. Which instructions have an encoding: an immediate fits the Pod's width
(30_encoding.md R64); every other operand value is legal (R69). -/

namespace Sys2Proof

/-- The immediate fits the Pod's `W` bytes (30_encoding.md R64). -/
def immediateFits (p : Pod) (imm : Immediate) : Bool := imm.toNat < 256 ^ p.width

/-- An instruction with an encoding. -/
def Instr.wellFormed : Instr → Bool
  | .moveImm p _ imm => immediateFits p imm
  | .moveAbs _ _ _ => true
  | .addImm p _ imm => immediateFits p imm
  | .addAbs _ _ _ => true
  | .subtractImm p _ imm => immediateFits p imm
  | .subtractAbs _ _ _ => true
  | .multiplyImm p _ imm => immediateFits p imm
  | .multiplyAbs _ _ _ => true
  | .divideImm p _ imm => immediateFits p imm
  | .divideAbs _ _ _ => true
  | .compareImm p _ imm => immediateFits p imm
  | .compareAbs _ _ _ => true
  | .jump _ => true
  | .jumpIfEqual _ => true
  | .jumpIfLessThan _ => true
  | .print _ _ => true

end Sys2Proof
end

