-- ==== Sys2Proof/Decode.lean ====
section
/-! DEFINITION. The decoder, total on any byte sequence and rejecting by name, and the encoder, both
from the formats of 30_encoding.md. -/

namespace Sys2Proof

/-- Why a byte sequence does not start with an instruction. `fetchFault` in Machine/Fetch.lean gives
the machine fault of each. -/
inductive DecodeError where
  /-- A field would pass the end of the bytes (40_execution_cycle.md R82). -/
  | truncated
  /-- An opcode byte `0x0A` to `0xFF` (30_encoding.md R52). -/
  | invalidOpcode
  /-- Metadata bits 7:5 are 6 or 7 (30_encoding.md R55, R58). -/
  | invalidPod
  /-- A Metadata bit of 3:0 is set (30_encoding.md R56, R58). -/
  | reservedBits
deriving DecidableEq, Repr

/-- The six typed opcodes (30_encoding.md R51). -/
inductive TypedOp where
  | move | add | subtract | multiply | divide | compare
deriving DecidableEq, Repr

/-- The three jump opcodes (30_encoding.md R51). -/
inductive JumpOp where
  | always | ifEqual | ifLessThan
deriving DecidableEq, Repr

/-- An opcode with its family (30_encoding.md R51). -/
inductive Opcode where
  | typed (op : TypedOp)
  | jump (op : JumpOp)
  | print
deriving DecidableEq, Repr

/-- The opcode of a byte; none for the illegal bytes (30_encoding.md R51, R52). -/
def opcodeOf (b : Byte) : Option Opcode :=
  match b.toNat with
  | 0 => some (.typed .move)
  | 1 => some (.typed .add)
  | 2 => some (.typed .subtract)
  | 3 => some (.typed .multiply)
  | 4 => some (.typed .divide)
  | 5 => some (.typed .compare)
  | 6 => some (.jump .always)
  | 7 => some (.jump .ifEqual)
  | 8 => some (.jump .ifLessThan)
  | 9 => some .print
  | _ => none

/-- The Immediate form of a typed opcode (30_encoding.md R59). -/
def immForm (op : TypedOp) (p : Pod) (dst : DataAddr) (imm : Immediate) : Instr :=
  match op with
  | .move => .moveImm p dst imm
  | .add => .addImm p dst imm
  | .subtract => .subtractImm p dst imm
  | .multiply => .multiplyImm p dst imm
  | .divide => .divideImm p dst imm
  | .compare => .compareImm p dst imm

/-- The Absolute form of a typed opcode (30_encoding.md R60). -/
def absForm (op : TypedOp) (p : Pod) (dst src : DataAddr) : Instr :=
  match op with
  | .move => .moveAbs p dst src
  | .add => .addAbs p dst src
  | .subtract => .subtractAbs p dst src
  | .multiply => .multiplyAbs p dst src
  | .divide => .divideAbs p dst src
  | .compare => .compareAbs p dst src

/-- The form of a jump opcode (30_encoding.md R61). -/
def jumpForm (op : JumpOp) (t : Target) : Instr :=
  match op with
  | .always => .jump t
  | .ifEqual => .jumpIfEqual t
  | .ifLessThan => .jumpIfLessThan t

/-- An `n`-byte little-endian field and the bytes after it (40_execution_cycle.md R82). -/
def takeField (n : Nat) (bs : List Byte) : Except DecodeError (Nat × List Byte) :=
  match takeBytes n bs with
  | none => .error .truncated
  | some (field, rest) => .ok (le field, rest)

/-- The Pod of a Metadata byte: the Pod range is checked first, then the reserved bits
(40_execution_cycle.md R84, R89). Bit 4 is not examined. -/
def metadataPod (m : Byte) : Except DecodeError Pod :=
  match Pod.ofCode (m.extractLsb' 5 3) with
  | none => .error .invalidPod
  | some p => if m.extractLsb' 0 4 = 0 then .ok p else .error .reservedBits

/-- The mode of a typed opcode's Metadata byte, its bit 4: true for Absolute (30_encoding.md R57). -/
def metadataAbsolute (m : Byte) : Bool := m.getLsbD 4

/-- The Metadata byte and the bytes after it (40_execution_cycle.md R84). -/
def takeMetadata (bs : List Byte) : Except DecodeError (Byte × Pod × List Byte) :=
  match bs with
  | [] => .error .truncated
  | m :: rest =>
    match metadataPod m with
    | .error e => .error e
    | .ok p => .ok (m, p, rest)

/-- The operand fields of a typed opcode, `bs` being the bytes after its opcode byte
(40_execution_cycle.md R84). Metadata bit 4 selects the shape (30_encoding.md R57). -/
def decodeTyped (op : TypedOp) (bs : List Byte) : Except DecodeError (Instr × List Byte) :=
  match takeMetadata bs with
  | .error e => .error e
  | .ok (m, p, bs1) =>
    match takeField 4 bs1 with
    | .error e => .error e
    | .ok (dst, bs2) =>
      if metadataAbsolute m then
        match takeField 4 bs2 with
        | .error e => .error e
        | .ok (src, rest) => .ok (absForm op p (BitVec.ofNat 32 dst) (BitVec.ofNat 32 src), rest)
      else
        match takeField p.width bs2 with
        | .error e => .error e
        | .ok (imm, rest) => .ok (immForm op p (BitVec.ofNat 32 dst) (BitVec.ofNat 64 imm), rest)

/-- The target field of a jump (30_encoding.md R61, R66). -/
def decodeJump (op : JumpOp) (bs : List Byte) : Except DecodeError (Instr × List Byte) :=
  match takeField 8 bs with
  | .error e => .error e
  | .ok (t, rest) => .ok (jumpForm op (BitVec.ofNat 64 t), rest)

/-- The operand fields of Print (43_print.md R150). -/
def decodePrint (bs : List Byte) : Except DecodeError (Instr × List Byte) :=
  match takeMetadata bs with
  | .error e => .error e
  | .ok (_, p, bs1) =>
    match takeField 4 bs1 with
    | .error e => .error e
    | .ok (addr, rest) => .ok (.print p (BitVec.ofNat 32 addr), rest)

/-- The instruction at the head of a byte sequence and the bytes after it, or why there is none. The
opcode byte is dispatched on before anything else is fetched (40_execution_cycle.md R80, R83). -/
def decode (bs : List Byte) : Except DecodeError (Instr × List Byte) :=
  match bs with
  | [] => .error .truncated
  | b :: rest =>
    match opcodeOf b with
    | none => .error .invalidOpcode
    | some (.typed op) => decodeTyped op rest
    | some (.jump op) => decodeJump op rest
    | some .print => decodePrint rest

/-- The Metadata byte `pod << 5 | mode << 4` (30_encoding.md R53). -/
def metadataByte (p : Pod) (absolute : Bool) : Byte :=
  (p.code.setWidth 8 <<< 5) ||| (if absolute then 0x10 else 0x00)

/-- Format IMM (30_encoding.md R59). -/
def encodeImm (opcode : Byte) (p : Pod) (dst : DataAddr) (imm : Immediate) : List Byte :=
  opcode :: metadataByte p false :: (leBytes 4 dst.toNat ++ leBytes p.width imm.toNat)

/-- Format ABS (30_encoding.md R60). -/
def encodeAbs (opcode : Byte) (p : Pod) (dst src : DataAddr) : List Byte :=
  opcode :: metadataByte p true :: (leBytes 4 dst.toNat ++ leBytes 4 src.toNat)

/-- Format JMP (30_encoding.md R61). -/
def encodeJump (opcode : Byte) (t : Target) : List Byte :=
  opcode :: leBytes 8 t.toNat

/-- Format PRT, with the ignored bit 4 written 0 (30_encoding.md R62, R70). -/
def encodePrint (opcode : Byte) (p : Pod) (addr : DataAddr) : List Byte :=
  opcode :: metadataByte p false :: leBytes 4 addr.toNat

/-- The bytes of a well-formed instruction, in stream order (30_encoding.md R59 to R62). -/
def encode : Instr → List Byte
  | .moveImm p dst imm => encodeImm 0x00 p dst imm
  | .moveAbs p dst src => encodeAbs 0x00 p dst src
  | .addImm p dst imm => encodeImm 0x01 p dst imm
  | .addAbs p dst src => encodeAbs 0x01 p dst src
  | .subtractImm p dst imm => encodeImm 0x02 p dst imm
  | .subtractAbs p dst src => encodeAbs 0x02 p dst src
  | .multiplyImm p dst imm => encodeImm 0x03 p dst imm
  | .multiplyAbs p dst src => encodeAbs 0x03 p dst src
  | .divideImm p dst imm => encodeImm 0x04 p dst imm
  | .divideAbs p dst src => encodeAbs 0x04 p dst src
  | .compareImm p dst imm => encodeImm 0x05 p dst imm
  | .compareAbs p dst src => encodeAbs 0x05 p dst src
  | .jump t => encodeJump 0x06 t
  | .jumpIfEqual t => encodeJump 0x07 t
  | .jumpIfLessThan t => encodeJump 0x08 t
  | .print p addr => encodePrint 0x09 p addr

/-- The instruction's length in bytes, the table of 30_encoding.md R63. -/
def Instr.length : Instr → Nat
  | .moveImm p _ _ => 6 + p.width
  | .moveAbs _ _ _ => 10
  | .addImm p _ _ => 6 + p.width
  | .addAbs _ _ _ => 10
  | .subtractImm p _ _ => 6 + p.width
  | .subtractAbs _ _ _ => 10
  | .multiplyImm p _ _ => 6 + p.width
  | .multiplyAbs _ _ _ => 10
  | .divideImm p _ _ => 6 + p.width
  | .divideAbs _ _ _ => 10
  | .compareImm p _ _ => 6 + p.width
  | .compareAbs _ _ _ => 10
  | .jump _ => 9
  | .jumpIfEqual _ => 9
  | .jumpIfLessThan _ => 9
  | .print _ _ => 6

/-- The longest instruction has 14 bytes (30_encoding.md R50, R63). -/
def maxInstrLength : Nat := 14

/-- Byte `k` in stream order of an instruction given as opcode_table.json numbers its bits: the first
two bytes are one 16-bit value with byte 0 in bits 15:8 and byte 1 in bits 7:0 (30_encoding.md
section 9). DESIGN CHOICE (log 9): the table gives no later byte a number, and the model puts byte
`k >= 2` in bits `8k+7:8k`. -/
def tableByte (v k : Nat) : Byte :=
  match k with
  | 0 => BitVec.ofNat 8 (v >>> 8)
  | 1 => BitVec.ofNat 8 v
  | k + 2 => BitVec.ofNat 8 (v >>> (8 * (k + 2)))

/-- The bytes of an instruction whose `nbits` table bits are `w`, every later bit 0, up to the longest
instruction. -/
def tableBytes (nbits w : Nat) : List Byte :=
  (List.range maxInstrLength).map (tableByte (w % 2 ^ nbits))

/-- What the decoder reads from an instruction whose table bits are `w`. -/
def decodeTableWord (nbits w : Nat) : Option Instr :=
  match decode (tableBytes nbits w) with
  | .ok (i, _) => some i
  | .error _ => none

end Sys2Proof
end

