-- ==== Sys2Proof/Machine/Fetch.lean ====
section
/-! DEFINITION. Fetching an instruction from the program (40_execution_cycle.md R82), and placing an
instruction's bytes in a program. -/

namespace Sys2Proof.Machine

/-- The fault that a failed decode raises (60_exceptions.md R201 to R203). -/
def fetchFault : DecodeError → Fault
  | .truncated => .unexpectedEndOfProgram
  | .invalidOpcode => .invalidOpcode
  | .invalidPod => .invalidMetadata
  | .reservedBits => .invalidMetadata

/-- The instruction at `ip`, or the fault its fetch and decode raise. The program's bytes from `ip` on
are all that a fetch can see (40_execution_cycle.md R82). -/
def fetchInstr (s : State) : Except Fault Instr :=
  match decode (s.prog.drop s.ip) with
  | .ok (i, _) => .ok i
  | .error e => .error (fetchFault e)

/-- The halt check's condition: `ip = P` (40_execution_cycle.md R81). -/
def atEnd (s : State) : Bool := s.ip = s.prog.length

/-- The program `prog` with `bytes` at offset `at_`; a program that is too short is first filled with
zero bytes. -/
def placeBytes (prog : List Byte) (at_ : Nat) (bytes : List Byte) : List Byte :=
  prog.take at_ ++ List.replicate (at_ - prog.length) 0 ++ bytes ++ prog.drop (at_ + bytes.length)

end Sys2Proof.Machine
end

