-- ==== Sys2Proof/Machine/Step.lean ====
section
/-! DEFINITION. One step of the CORE (40_execution_cycle.md R80), and the host's placing of an
instruction where the next step fetches. -/

namespace Sys2Proof.Machine

/-- One step (40_execution_cycle.md R80): the halt check, a fault of the fetch, or one whole
instruction. Halted and Faulted are absorbing: nothing changes in them (R91,
92_eei_decisions.md D17; log 5). -/
def step (s : State) : Host.Outcome State Fault Refusal :=
  match s.status.state with
  | .halted => .next s
  | .faulted => .next s
  | .running =>
    if atEnd s then .next (halt s)
    else
      match fetchInstr s with
      | .error f => .next (raiseFault s f)
      | .ok i => exec i s

/-- `s` with the instruction whose opcode-table bits are `w` placed in the program at `ip`, every later
byte of the longest instruction 0 (log 1). -/
def State.withFetchWord (s : State) (nbits w : Nat) : State :=
  { s with prog := placeBytes s.prog s.ip (tableBytes nbits w) }

end Sys2Proof.Machine
end

