-- ==== Sys2Proof/Machine/HostPort.lean ====
section
/-! DEFINITION. The host's side of the CORE: reset, `run()`, readback and the text of Print events
(70_reset_and_hazards.md R230, 40_execution_cycle.md R90, 20_memory.md R49, 43_print.md R152). -/

namespace Sys2Proof.Machine

/-- What `run()` returns (40_execution_cycle.md R90). -/
inductive RunResult where
  /-- The run halted. -/
  | ok
  /-- The run faulted, with this fault. -/
  | err (f : Fault)
deriving DecidableEq, Repr

/-- The result a status stands for; none while Running (40_execution_cycle.md R90, R91). -/
def runResult (st : Status) : Option RunResult :=
  match st.state, st.fault with
  | .halted, _ => some .ok
  | .faulted, some f => some (.err f)
  | _, _ => none

/-- The instance has stopped (40_execution_cycle.md R91). -/
def stopped (s : State) : Bool := s.status.state != .running

/-- `run()` for at most `fuel` steps (40_execution_cycle.md R90). `none` says only that the run has not
stopped yet: running out of fuel is not a state of the CORE (70_reset_and_hazards.md R240). -/
def run : Nat → State → Option (RunResult × State)
  | 0, s => (runResult s.status).map (fun r => (r, s))
  | fuel + 1, s =>
    match runResult s.status with
    | some r => some (r, s)
    | none =>
      match step s with
      | .next t => run fuel t
      | .fault _ => none
      | .refused _ => none

/-- What the host may read after a run (20_memory.md R49). -/
structure Readback where
  /-- The instruction pointer. -/
  ip : Nat
  /-- The encoded Comparison Register (10_state.md R18). -/
  cmp : BitVec 2
  /-- The encoded `status.state` (10_state.md R19). -/
  state : BitVec 2
  /-- The encoded `status.fault` (10_state.md R19). -/
  fault : BitVec 3
  /-- The Print events. -/
  out : List PrintEvent
deriving DecidableEq, Repr

/-- The host's readback, only after the run has stopped (20_memory.md R49). -/
def readback (s : State) : Option Readback :=
  if stopped s then
    some ⟨s.ip, cmpCode s.cmp, stateCode s.status.state, faultCode s.status.fault, s.out⟩
  else none

/-- The host's `read(o)` of `k` memory bytes after a run (20_memory.md R49). -/
def hostRead (s : State) (o k : Nat) : Option (List Byte) :=
  if stopped s && admitted s o k then some (readBytes s.mem o k) else none

/-- An instance as its host holds it: the CORE's state, and whether the host has called `run()` since
construction (70_reset_and_hazards.md R230). The record is the host's: the CORE has no state beyond
10_state.md R10 (R24), and its status is Running before the first call too (log 10). -/
structure Instance where
  /-- The CORE's state. -/
  core : State
  /-- `run()` has been called since construction. -/
  begun : Bool
deriving DecidableEq, Repr

/-- A newly constructed instance: reset discards everything of an earlier run, and `run()` has not been
called (70_reset_and_hazards.md R230, R231). The model's draw counter goes on, so that a later run
draws its NaNs afresh (log 3). -/
def construct (prog : List Byte) (capacity draws : Nat) : Instance :=
  ⟨{ State.resetWith prog capacity with nanDraws := draws }, false⟩

/-- The host calls `run()` (40_execution_cycle.md R90). -/
def callRun (x : Instance) : Instance := { x with begun := true }

/-- The instance's next step: the CORE steps only in a run that has been called (40_execution_cycle.md
R90). No step answers a fault or a refusal (log 5); one that did would leave the instance as it is. -/
def stepRun (x : Instance) : Instance :=
  if x.begun then
    match step x.core with
    | .next t => { x with core := t }
    | .fault _ => x
    | .refused _ => x
  else x

/-- The instance is not running: before the first `run()`, or after Halted or Faulted
(70_reset_and_hazards.md R230). -/
def resettable (x : Instance) : Bool := !x.begun || stopped x.core

/-- The host's reset with `PROG` and `N`: allowed only when the instance is not running, for a program
shorter than `2^64` bytes (70_reset_and_hazards.md R230, 00_scope.md R5). -/
def hostReset (x : Instance) (prog : List Byte) (capacity : Nat) : Option Instance :=
  if resettable x && prog.length < Config.programBound then
    some (construct prog capacity x.core.nanDraws)
  else none

/-- `PRINT_TEXT` of an event: an integer Pod's unsigned decimal value, a float's text free
(43_print.md R152, log 6). -/
def printText (e : PrintEvent) : String :=
  match e.pod with
  | .f32 => Config.textF32 (BitVec.ofNat 32 (le e.bytes))
  | .f64 => Config.textF64 (BitVec.ofNat 64 (le e.bytes))
  | .u8 => Nat.repr (le e.bytes)
  | .u16 => Nat.repr (le e.bytes)
  | .u32 => Nat.repr (le e.bytes)
  | .u64 => Nat.repr (le e.bytes)

end Sys2Proof.Machine
end

