-- ==== Sys2Proof/Safety.lean ====
section
/-! DEFINITION. What the statements speak of: the states the spec allows, safe runs, what a typed
instruction leaves alone, and the correct rounding of IEEE 754. -/

namespace Sys2Proof.Machine

/-- A state the spec allows: memory in canonical form and inside the capacity (10_state.md R20),
`0 <= ip <= P < 2^64` (R12, R14), a fault kind exactly when Faulted (R19), and every event with its
Pod's width of bytes (R22). -/
abbrev State.Inv (s : State) : Prop :=
  Memory.wf s.mem = true ∧ (∀ c ∈ s.mem, c.1 < s.capacity) ∧
  s.ip ≤ s.prog.length ∧ s.prog.length < Config.programBound ∧
  (s.status.fault.isSome = true ↔ s.status.state = .faulted) ∧
  (∀ e ∈ s.out, e.bytes.length = e.pod.width)

/-- `n` steps from `s` lead to `t`. -/
def Reaches : Nat → State → State → Prop
  | 0, s, t => s = t
  | n + 1, s, t => ∃ u, step s = .next u ∧ Reaches n u t

/-- A run is safe if it never faults: no number of steps leads to Faulted (40_execution_cycle.md
R91). -/
def SafeRun (s : State) : Prop := ∀ n t, Reaches n s t → t.status.state ≠ .faulted

/-- The configuration and the status are as before: no instruction changes PROG or N (10_state.md R10),
and one that completes stays Running (40_execution_cycle.md R87). -/
def SameSetup (s t : State) : Prop :=
  t.prog = s.prog ∧ t.capacity = s.capacity ∧ t.status = s.status

/-- Every byte of memory reads as before. -/
def SameMemory (s t : State) : Prop := ∀ a, readByte t.mem a = readByte s.mem a

/-- Every byte of memory outside the `k` bytes from `o` reads as before. -/
def SameMemoryOutside (s t : State) (o k : Nat) : Prop :=
  ∀ a, (a < o ∨ o + k ≤ a) → readByte t.mem a = readByte s.mem a

/-- `t` is `s` after a completed instruction that stored the pattern `v` in Pod `p` at `dst`, went on
to `ip`, and changed nothing else (the model's draw counter apart). -/
def StoredAt (s t : State) (p : Pod) (dst : DataAddr) (v ip : Nat) : Prop :=
  readBytes t.mem dst.toNat p.width = leBytes p.width v ∧
  SameMemoryOutside s t dst.toNat p.width ∧
  t.ip = ip ∧ t.cmp = s.cmp ∧ t.out = s.out ∧ SameSetup s t

/-- The value in memory at `o` in Pod `p` (20_memory.md R33). -/
def valueAt (s : State) (p : Pod) (o : DataAddr) : Nat := le (readBytes s.mem o.toNat p.width)

/-- The `p`-wide access at `o` lies in the Memory Region (20_memory.md R32). -/
abbrev InRegion (s : State) (p : Pod) (o : DataAddr) : Prop := o.toNat + p.width ≤ s.capacity

/-- A typed instruction in the shape its operand has: the Immediate form for `.imm`, the Absolute form
for `.abs` (40_execution_cycle.md R85). So a statement about `typedInstr .add p dst x` for every `x` is
about `addImm` and `addAbs`. -/
def typedInstr (op : TypedOp) (p : Pod) (dst : DataAddr) : Operand → Instr
  | .imm v => immForm op p dst v
  | .abs src => absForm op p dst src

/-- The right-hand operand's value `b`: the low `W(p)` bytes of the immediate, or the value in memory at
`src` (40_execution_cycle.md R84, R85). -/
def operandValue (s : State) (p : Pod) : Operand → Nat
  | .imm v => v.toNat % 256 ^ p.width
  | .abs src => valueAt s p src

/-- The read at `src`, if there is one, lies in the Memory Region. -/
def OperandInRegion (s : State) (p : Pod) : Operand → Prop
  | .imm _ => True
  | .abs src => InRegion s p src

/-- Every access of the typed instruction lies in the Memory Region, whose contents are in canonical
form: the conditions under which it meets no MemoryFault (60_exceptions.md R204). -/
def OperandsReady (s : State) (p : Pod) (dst : DataAddr) (x : Operand) : Prop :=
  InRegion s p dst ∧ OperandInRegion s p x ∧ Memory.wf s.mem = true

/-- Where IEEE 754 gives a NaN (41_alu.md R103, R104): a NaN operand, `inf - inf`, `0 * inf`, `0 / 0`,
`inf / inf`. -/
def NanCase (op : TypedOp) (f : FloatFormat) (a b : Nat) : Prop :=
  isNaN f a = true ∨ isNaN f b = true ∨
  match op with
  | .add => isInf f a = true ∧ isInf f b = true ∧ signBit f a ≠ signBit f b
  | .subtract => isInf f a = true ∧ isInf f b = true ∧ signBit f a = signBit f b
  | .multiply => (isInf f a = true ∧ isZero f b = true) ∨ (isZero f a = true ∧ isInf f b = true)
  | .divide => (isZero f a = true ∧ isZero f b = true) ∨ (isInf f a = true ∧ isInf f b = true)
  | .move => False
  | .compare => False

/-- The opcode is one of Add, Subtract, Multiply and Divide. -/
def Arithmetic (op : TypedOp) : Prop := op ≠ .move ∧ op ≠ .compare

/-- `s` after fault entry with `f` (60_exceptions.md R206): only the status changed. -/
abbrev FaultedFrom (s : State) (f : Fault) : State := { s with status := ⟨.faulted, some f⟩ }

/-- The typed instruction completes: it stores the pattern `v` at `dst`, `ip` moves past it, and nothing
else changes, the model's draw counter included. -/
def StoresResult (s : State) (op : TypedOp) (p : Pod) (dst : DataAddr) (x : Operand) (v : Nat) :
    Prop :=
  ∃ t, exec (typedInstr op p dst x) s = .next t ∧
    StoredAt s t p dst v (s.ip + typedLength p x) ∧ t.nanDraws = s.nanDraws

/-- `|units(m) * d - n|`: how far the magnitude `m` is from the exact `n / d`, times `d`. -/
def distance (f : FloatFormat) (n d m : Nat) : Nat := ((units f m : Int) * d - n).natAbs

/-- `m` is the magnitude IEEE 754's roundTiesToEven gives for the exact value of `n / d` units
(41_alu.md R103): no magnitude up to infinity's is nearer, and of two equally near the even one is
taken. Infinity stands for the value one step beyond the largest finite one, as IEEE 754's overflow
rule has it. -/
def RoundsToEven (f : FloatFormat) (n d m : Nat) : Prop :=
  m ≤ infMagnitude f ∧
  ∀ q, q ≤ infMagnitude f →
    distance f n d m ≤ distance f n d q ∧ (distance f n d m = distance f n d q → q ≠ m → m % 2 = 0)

/-- A finite float pattern: neither a NaN nor an infinity. -/
abbrev FinitePattern (f : FloatFormat) (x : Nat) : Prop := magnitude f x < infMagnitude f

end Sys2Proof.Machine
end

