-- ==== Sys2Proof/Certificates/Slice0/Obligations.lean ====
section
/-! DEFINITION. The statements for the provers. `typedInstr op p dst x` for every operand `x` covers the
Immediate and the Absolute form of an opcode (Safety.lean). -/

open Sys2Proof Sys2Proof.Machine

/-! ## Reset and the host -/

/-- 70_reset_and_hazards.md section 1: what construction with PROG and N leaves. `ip = 0` and the status
value are the spec's decisions D4 and D6. -/
def Obligations.ResetLeavesTheStatedValues : Prop :=
  ∀ (prog : List Byte) (n : Nat),
    (State.resetWith prog n).ip = 0 ∧ (State.resetWith prog n).cmp = .unset ∧
    (∀ a, readByte (State.resetWith prog n).mem a = 0) ∧
    (State.resetWith prog n).status = ⟨.running, none⟩ ∧ (State.resetWith prog n).out = [] ∧
    (State.resetWith prog n).prog = prog ∧ (State.resetWith prog n).capacity = n

/-- The invariant `State.Inv` holds after every reset with a program below `2^64` bytes, and at
`State.reset`, whose program and capacity are the model's choice (log 1, log 2). -/
def Obligations.InvHoldsAfterReset : Prop :=
  (∀ (prog : List Byte) (n : Nat), prog.length < 2 ^ 64 → (State.resetWith prog n).Inv) ∧
  State.reset.Inv

/-- 70_reset_and_hazards.md section 1 (derived there): with `P = 0` the first step halts, and `run()`
answers Ok. -/
def Obligations.EmptyProgramHaltsAtOnce : Prop :=
  ∀ n : Nat,
    step (State.resetWith [] n) = .next { State.resetWith [] n with status := ⟨.halted, none⟩ } ∧
    run 1 (State.resetWith [] n) =
      some (.ok, { State.resetWith [] n with status := ⟨.halted, none⟩ })

/-- 70_reset_and_hazards.md section 1: the host resets an instance if and only if it is not running, that
is before the first `run()` or after Halted or Faulted (and the program is shorter than `2^64` bytes:
the spec's decision D15); the instance then has the values of construction (`ip` and the status: D4,
D6). A call of `run()` is recorded until the next reset, steps keep the record, and nothing steps
before the call. Where the record is held is the model's reading (log 10). -/
def Obligations.HostResetsOnlyWhenNotRunning : Prop :=
  ∀ (x : Instance) (prog : List Byte) (n : Nat),
    ((∃ y, hostReset x prog n = some y) ↔
      (x.begun = false ∨ x.core.status.state ≠ .running) ∧ prog.length < 2 ^ 64) ∧
    (∀ y, hostReset x prog n = some y →
      y.begun = false ∧ y.core.ip = 0 ∧ y.core.cmp = .unset ∧ y.core.mem = [] ∧
      y.core.status = ⟨.running, none⟩ ∧ y.core.out = [] ∧ y.core.prog = prog ∧
      y.core.capacity = n) ∧
    (callRun x = ⟨x.core, true⟩) ∧
    (x.begun = true → ∀ t, step x.core = .next t → stepRun x = ⟨t, true⟩) ∧
    (x.begun = false → stepRun x = x)

/-- 10_state.md sections 4 and 5: the encodings of `cmp`, `status.state` and `status.fault` (the spec's
decisions D6 and D19). -/
def Obligations.StatusEncodingsFollowTheTables : Prop :=
  (cmpCode .unset = 0b00#2 ∧ cmpCode .less = 0b01#2 ∧ cmpCode .equal = 0b10#2 ∧
    cmpCode .greater = 0b11#2) ∧
  (stateCode .running = 0#2 ∧ stateCode .halted = 1#2 ∧ stateCode .faulted = 2#2) ∧
  (faultCode none = 0#3 ∧ faultCode (some .unexpectedEndOfProgram) = 1#3 ∧
    faultCode (some .invalidMetadata) = 2#3 ∧ faultCode (some .invalidOpcode) = 3#3 ∧
    faultCode (some .memoryFault) = 4#3 ∧ faultCode (some .arithmeticFault) = 5#3)

/-! ## The step -/

/-- When the bytes at `ip` decode to an instruction, a step of a Running instance is that instruction's
execution, in the same state: `exec` moves `ip` itself. -/
def Obligations.StepRunsDecodedInstruction : Prop :=
  ∀ (s : State) (i : Instr) (rest : List Byte), s.status.state = .running →
    decode (s.prog.drop s.ip) = .ok (i, rest) → step s = exec i s

/-- 40_execution_cycle.md section 1: a step that begins at `ip = P` halts and changes nothing else; no other step enters Halted; and
from a state the spec allows no step leads to `ip > P` (for a taken jump this is the spec's decision
D3). -/
def Obligations.HaltedOnlyByTheHaltCheck : Prop :=
  ∀ s : State, s.status.state = .running →
    (s.ip = s.prog.length →
      step s = .next { s with status := { s.status with state := .halted } }) ∧
    (∀ t, step s = .next t → t.status.state = .halted → s.ip = s.prog.length) ∧
    (s.Inv → ∀ t, step s = .next t → t.ip ≤ t.prog.length)

/-- Halted and Faulted are absorbing (40_execution_cycle.md section 5, the spec's decision D17; that a
step answers the unchanged state is the model's form of it, log 5): no number of steps changes such a
state, and `run()` answers the same result again. -/
def Obligations.StoppedInstanceNeverChanges : Prop :=
  ∀ s : State, s.status.state ≠ .running →
    (∀ n t, Reaches n s t → t = s) ∧
    (∀ fuel r, runResult s.status = some r → run fuel s = some (r, s))

/-- The machine is never stuck: every step of every state answers a next state (faults are taken, log
5). -/
def Obligations.StepAlwaysAnswersNext : Prop :=
  ∀ s : State, ∃ t, step s = .next t

/-- 60_exceptions.md section 2: a step that faults changes the status and nothing else; `ip` stays at
`ip0` (the spec's decision D7). -/
def Obligations.FaultsArePrecise : Prop :=
  ∀ s t : State, s.status.state = .running → step s = .next t → t.status.state = .faulted →
    ∃ f, t = FaultedFrom s f

/-- Every step from a state the spec allows leads to a state the spec allows: memory canonical and
inside N, `ip <= P < 2^64`, a fault kind exactly when Faulted, every event of its Pod's width. -/
def Obligations.EveryStepKeepsInv : Prop :=
  ∀ s t : State, s.Inv → step s = .next t → t.Inv

/-- 40_execution_cycle.md section 4 (derived there): a step that completes changes at most one of
memory, `cmp` and `out`. -/
def Obligations.AtMostOneEffectPerStep : Prop :=
  ∀ s t : State, step s = .next t →
    (t.cmp = s.cmp ∧ t.out = s.out) ∨ (t.mem = s.mem ∧ t.out = s.out) ∨
    (t.mem = s.mem ∧ t.cmp = s.cmp)

/-- R16: only Compare writes `cmp`, every Compare that completes writes it, and an instruction that
faults leaves it. -/
def Obligations.OnlyCompareWritesCmp : Prop :=
  ∀ (i : Instr) (s t : State), s.status.state = .running → exec i s = .next t →
    ((∀ p dst x, i ≠ typedInstr .compare p dst x) → t.cmp = s.cmp) ∧
    (∀ p dst x, i = typedInstr .compare p dst x → t.status.state = .running →
      t.cmp = partialOrder p (valueAt s p dst) (operandValue s p x)) ∧
    (t.status.state = .faulted → t.cmp = s.cmp)

/-- 10_state.md section 4: only JumpIfEqual and JumpIfLessThan read `cmp`: any other instruction does the
same whatever `cmp` holds, and leaves either a value that does not depend on it or `cmp` as it was. No
instruction's effect on memory depends on `cmp`. Two executions are compared: that a NaN result is the
same in both, being drawn by one counter, is the model's choice (log 3). -/
def Obligations.OnlyConditionalJumpsReadCmp : Prop :=
  ∀ (i : Instr) (s : State) (c : CmpValue),
    ((∀ g, i ≠ .jumpIfEqual g) → (∀ g, i ≠ .jumpIfLessThan g) →
      ∀ t, exec i s = .next t → ∃ d, exec i { s with cmp := c } = .next { t with cmp := d } ∧
        (d = t.cmp ∨ (t.cmp = s.cmp ∧ d = c))) ∧
    (∀ t u, exec i s = .next t → exec i { s with cmp := c } = .next u → u.mem = t.mem)

/-- 10_state.md sections 1 and 6: no step changes PROG or N. -/
def Obligations.ProgramAndCapacityNeverChange : Prop :=
  ∀ s t : State, step s = .next t → t.prog = s.prog ∧ t.capacity = s.capacity

/-- R22: an instruction leaves `out` as it was, or it is a Print, which appends the event of its Pod and
the `W(pod)` bytes it read. -/
def Obligations.OnlyPrintAppendsOutput : Prop :=
  ∀ (i : Instr) (s t : State), exec i s = .next t →
    t.out = s.out ∨
    ∃ p addr, i = .print p addr ∧
      t.out = s.out ++ [⟨p, readBytes s.mem addr.toNat p.width⟩]

/-- R46: no store is seen by instruction fetch. What a fetch at any offset gives is the same after a
store as before it, and after any whole step. -/
def Obligations.StoresAreNotFetched : Prop :=
  (∀ (s t : State) (o : Nat) (bytes : List Byte), memWrite s o bytes = .ok t →
    fetchInstr t = fetchInstr s) ∧
  (∀ (s t : State) (j : Nat), step s = .next t →
    fetchInstr { t with ip := j } = fetchInstr { s with ip := j })

/-! ## Runs -/

/-- 40_execution_cycle.md section 5: a run that answers has stopped in a state that steps reach, its
result is that state's, and a longer run answers the same (D17). -/
def Obligations.RunAnswersWhatItReaches : Prop :=
  ∀ (fuel : Nat) (s t : State) (r : RunResult), run fuel s = some (r, t) →
    runResult t.status = some r ∧ (∃ n, n ≤ fuel ∧ Reaches n s t) ∧
    ∀ k, run (fuel + k) s = some (r, t)

/-- `SafeRun` says what the host can see: from a state the spec allows, no number of steps faults if and
only if no run answers Err. -/
def Obligations.SafeRunIsNoErr : Prop :=
  ∀ s : State, s.Inv → (SafeRun s ↔ ∀ fuel f t, run fuel s ≠ some (.err f, t))

/-- 10_state.md section 7 and 60_exceptions.md section 2: no run retracts an event. -/
def Obligations.OutputIsNeverRetracted : Prop :=
  ∀ (n : Nat) (s t : State), Reaches n s t → ∃ events, t.out = s.out ++ events

/-! ## Encoding -/

/-- Decoding the encoding of a well-formed instruction, whatever follows it, gives the instruction and
what follows: all sixteen forms, every operand value. -/
def Obligations.DecodeOfEncodeIsIdentity : Prop :=
  ∀ (i : Instr) (rest : List Byte), i.wellFormed = true → decode (encode i ++ rest) = .ok (i, rest)

/-- What decodes is well formed, and its bytes are its encoding, but for Print's bit 4, which may be set
(30_encoding.md sections 3 and 7). -/
def Obligations.DecodedBytesAreTheEncoding : Prop :=
  ∀ (bs rest : List Byte) (i : Instr), decode bs = .ok (i, rest) →
    i.wellFormed = true ∧
    (bs = encode i ++ rest ∨
      ∃ p addr, i = .print p addr ∧
        bs = 0x09 :: metadataByte p true :: (leBytes 4 addr.toNat ++ rest))

/-- 30_encoding.md section 6: the decode depends on the instruction's own bytes alone. Bytes after an
instruction change nothing, and neither do bytes after an illegal opcode or Metadata byte. -/
def Obligations.LaterBytesDoNotChangeTheDecode : Prop :=
  ∀ bs more : List Byte,
    (∀ i rest, decode bs = .ok (i, rest) → decode (bs ++ more) = .ok (i, rest ++ more)) ∧
    (∀ e, decode bs = .error e → e ≠ .truncated → decode (bs ++ more) = .error e)

/-- Words of each family as the spec writes them (30_encoding.md section 8 and the rules' examples)
decode to the instructions they stand for. -/
def Obligations.SampleWordsDecode : Prop :=
  decode [0x01, 0x40, 0x08, 0x00, 0x00, 0x00, 0x05, 0x00, 0x00, 0x00] = .ok (.addImm .u32 8 5, []) ∧
  decode [0x00, 0x50, 0x00, 0x00, 0x00, 0x00, 0x04, 0x00, 0x00, 0x00] = .ok (.moveAbs .u32 0 4, []) ∧
  decode [0x00, 0x20, 0x02, 0x00, 0x00, 0x00, 0x34, 0x12] = .ok (.moveImm .u16 2 0x1234, []) ∧
  decode [0x05, 0x40, 0x00, 0x00, 0x00, 0x00, 0xFF, 0x00, 0x00, 0x00] =
    .ok (.compareImm .u32 0 255, []) ∧
  decode [0x08, 0x14, 0x00, 0x00, 0x00, 0x00, 0x00, 0x00, 0x00] = .ok (.jumpIfLessThan 20, []) ∧
  decode [0x09, 0x40, 0x00, 0x00, 0x00, 0x00] = .ok (.print .u32 0, [])

/-- 30_encoding.md section 2: an opcode byte `0x0A` to `0xFF` raises InvalidOpcode, whatever follows it or
nothing. That `ip` stays is the spec's decision D7. -/
def Obligations.IllegalOpcodeFaults : Prop :=
  ∀ (s : State) (b : Byte) (rest : List Byte), s.status.state = .running →
    s.prog.drop s.ip = b :: rest → 0x0A ≤ b.toNat →
    step s = .next (FaultedFrom s .invalidOpcode)

/-- 30_encoding.md section 3: a Metadata byte with Pod 6 or 7 (opcodes 0 to 5 and 9), or with a reserved bit set
(opcodes 0 to 5), raises InvalidMetadata, whatever follows it. That `ip` stays is the spec's decision
D7. -/
def Obligations.BadMetadataFaults : Prop :=
  ∀ (s : State) (b m : Byte) (rest : List Byte), s.status.state = .running →
    s.prog.drop s.ip = b :: m :: rest →
    ((b.toNat ≤ 5 ∨ b.toNat = 9) → 6 ≤ m.toNat / 32 →
      step s = .next (FaultedFrom s .invalidMetadata)) ∧
    (b.toNat ≤ 5 → m.toNat % 16 ≠ 0 → step s = .next (FaultedFrom s .invalidMetadata))

/-- Print's Metadata byte: bit 4 is ignored, and a set bit of 3:0 raises InvalidMetadata (30_encoding.md
section 3; the spec's decision D5; that `ip` stays, D7). -/
def Obligations.PrintIgnoresBitFourOnly : Prop :=
  (∀ (p : Pod) (addr : DataAddr) (rest : List Byte) (bit4 : Bool),
    decode (0x09 :: metadataByte p bit4 :: (leBytes 4 addr.toNat ++ rest)) =
      .ok (.print p addr, rest)) ∧
  (∀ (s : State) (m : Byte) (rest : List Byte), s.status.state = .running →
    s.prog.drop s.ip = 0x09 :: m :: rest → m.toNat % 16 ≠ 0 →
    step s = .next (FaultedFrom s .invalidMetadata))

/-- 60_exceptions.md section 1: a program that ends inside an instruction, after its opcode byte, raises
UnexpectedEndOfProgram, whatever the operands and the capacity are. The instruction may be spelled as
`encode` spells it, or be a Print with Metadata bit 4 set. Check order is the spec's decision D8; that a
jump's target is fetched even if it is not taken, D9; that bit 4 is ignored, D5; that `ip` stays, D7. -/
def Obligations.TruncatedInstructionFaults : Prop :=
  ∀ (s : State) (front back : List Byte), s.status.state = .running →
    ((∃ i, i.wellFormed = true ∧ encode i = front ++ back) ∨
      (∃ (p : Pod) (addr : DataAddr),
        0x09 :: metadataByte p true :: leBytes 4 addr.toNat = front ++ back)) →
    front ≠ [] → back ≠ [] → s.prog.drop s.ip = front →
    step s = .next (FaultedFrom s .unexpectedEndOfProgram)

/-- 10_state.md section 3 (derived there): an instruction that completes moves `ip` on by its length, or
it is a jump that is taken, to its target. -/
def Obligations.CompletedInstructionMovesIp : Prop :=
  ∀ (i : Instr) (s t : State), s.status.state = .running → exec i s = .next t →
    t.status.state = .running →
    t.ip = s.ip + i.length ∨
    ∃ g : Target, t.ip = g.toNat ∧ g.toNat ≤ s.prog.length ∧
      (i = .jump g ∨ (i = .jumpIfEqual g ∧ s.cmp = .equal) ∨
        (i = .jumpIfLessThan g ∧ s.cmp = .less))

/-! ## The memory port -/

/-- R32: an access is admitted if and only if `o + K <= N`; one that is not raises MemoryFault, and with
`N = 0` that is every access. -/
def Obligations.AccessBoundCheck : Prop :=
  ∀ (s : State) (o k : Nat) (bytes : List Byte),
    ((∃ bs, memRead s o k = .ok bs) ↔ o + k ≤ s.capacity) ∧
    ((∃ t, memWrite s o bytes = .ok t) ↔ o + bytes.length ≤ s.capacity) ∧
    (s.capacity < o + k → memRead s o k = .error .memoryFault) ∧
    (s.capacity < o + bytes.length → memWrite s o bytes = .error .memoryFault) ∧
    (s.capacity = 0 → 0 < k → memRead s o k = .error .memoryFault) ∧
    (s.capacity = 0 → bytes ≠ [] → memWrite s o bytes = .error .memoryFault)

/-- R33: a read gives the bytes in address order, the typed value is their little-endian number (for a
float Pod, the bit pattern), and an admitted read changes no state: it answers bytes alone. -/
def Obligations.ReadGivesTheBytesInOrder : Prop :=
  ∀ (s : State) (p : Pod) (o : DataAddr), InRegion s p o →
    ∃ bs, memRead s o.toNat p.width = .ok bs ∧ bs.length = p.width ∧
      (∀ j, j < p.width → bs[j]? = some (readByte s.mem (o.toNat + j))) ∧
      valueAt s p o = le bs ∧
      le bs = (List.range p.width).foldr
        (fun j acc => acc + (readByte s.mem (o.toNat + j)).toNat * 256 ^ j) 0

/-- R34: an admitted write sets its bytes and no other; a typed write of a value reads back as that
value. -/
def Obligations.WriteThenReadGivesTheBytes : Prop :=
  ∀ (s : State) (o : Nat), Memory.wf s.mem = true →
    (∀ bytes : List Byte, o + bytes.length ≤ s.capacity →
      ∃ t, memWrite s o bytes = .ok t ∧ readBytes t.mem o bytes.length = bytes ∧
        SameMemoryOutside s t o bytes.length ∧ t = { s with mem := t.mem }) ∧
    (∀ (p : Pod) (v : Nat), v < 256 ^ p.width → o + p.width ≤ s.capacity →
      ∃ t, memWrite s o (leBytes p.width v) = .ok t ∧ le (readBytes t.mem o p.width) = v)

/-- 20_memory.md section 3 (byte order: the spec's decision D1): a narrower read inside a wider write
sees the little-endian byte. -/
def Obligations.NarrowReadSeesLittleEndianByte : Prop :=
  ∀ (s t : State) (o k v j : Nat), Memory.wf s.mem = true → j < k →
    memWrite s o (leBytes k v) = .ok t →
    readByte t.mem (o + j) = BitVec.ofNat 8 (v / 256 ^ j)

/-- 60_exceptions.md section 1 (MemoryFault): a typed instruction whose `src` or `dst` access, or a Print
whose access, does not lie in the Memory Region raises MemoryFault; and only then does an instruction
raise it. That it comes before a zero divisor's ArithmeticFault is the spec's decision D8; that `ip`
stays, D7. -/
def Obligations.OutOfRangeAccessFaults : Prop :=
  ∀ s : State,
    (∀ op p dst x, (¬ OperandInRegion s p x ∨ ¬ InRegion s p dst) →
      exec (typedInstr op p dst x) s = .next (FaultedFrom s .memoryFault)) ∧
    (∀ p addr, ¬ InRegion s p addr → exec (.print p addr) s = .next (FaultedFrom s .memoryFault)) ∧
    (∀ i t, s.status.fault = none → exec i s = .next t → t.status.fault = some .memoryFault →
      (∃ op p dst x, i = typedInstr op p dst x ∧ (¬ OperandInRegion s p x ∨ ¬ InRegion s p dst)) ∨
      (∃ p addr, i = .print p addr ∧ ¬ InRegion s p addr))

/-! ## Move and arithmetic -/

/-- 41_alu.md section 2: Move (moveImm, moveAbs), in both shapes and for every Pod, stores the operand's bytes at `dst`,
the immediate's or those read at `src` before the write (overlap: the spec's decision D8; bit-exact
copies: D11), and changes nothing else. -/
def Obligations.MoveStoresTheOperand : Prop :=
  ∀ (s : State) (p : Pod) (dst : DataAddr) (x : Operand), OperandsReady s p dst x →
    StoresResult s .move p dst x (operandValue s p x)

/-- R101: Add, Subtract and Multiply (addImm, addAbs, subtractImm, subtractAbs, multiplyImm,
multiplyAbs) on the integer Pods, in both shapes, wrap modulo `2^n`, fault never
and set no flag. -/
def Obligations.IntegerAddSubtractMultiplyWrap : Prop :=
  ∀ (s : State) (p : Pod) (n : Nat) (dst : DataAddr) (x : Operand), p.valueType = .unsigned n →
    OperandsReady s p dst x →
    StoresResult s .add p dst x ((valueAt s p dst + operandValue s p x) % 2 ^ n) ∧
    StoresResult s .subtract p dst x
      (((valueAt s p dst : Int) - (operandValue s p x : Int)) % (2 : Int) ^ n).toNat ∧
    StoresResult s .multiply p dst x ((valueAt s p dst * operandValue s p x) % 2 ^ n)

/-- 41_alu.md section 1: Divide (divideImm, divideAbs) on the integer Pods, in both shapes, stores the
truncated quotient, and raises ArithmeticFault for a zero divisor. That `ip` stays there is the spec's
decision D7. -/
def Obligations.IntegerDivideTruncates : Prop :=
  ∀ (s : State) (p : Pod) (n : Nat) (dst : DataAddr) (x : Operand), p.valueType = .unsigned n →
    OperandsReady s p dst x →
    (operandValue s p x ≠ 0 →
      StoresResult s .divide p dst x (valueAt s p dst / operandValue s p x) ∧
      valueAt s p dst / operandValue s p x ≤ valueAt s p dst) ∧
    (operandValue s p x = 0 →
      exec (typedInstr .divide p dst x) s = .next (FaultedFrom s .arithmeticFault))

/-- 60_exceptions.md section 1 (ArithmeticFault): raised by a Divide of an integer Pod by zero whose
accesses lie in the Memory Region (a MemoryFault comes first: the spec's decision D8), and by nothing
else. -/
def Obligations.ArithmeticFaultOnlyFromIntegerDivide : Prop :=
  ∀ (i : Instr) (s t : State), s.status.fault = none → exec i s = .next t →
    (t.status.fault = some .arithmeticFault ↔
      ∃ p n dst x, i = typedInstr .divide p dst x ∧ p.valueType = .unsigned n ∧
        OperandInRegion s p x ∧ InRegion s p dst ∧ operandValue s p x = 0)

/-- 41_alu.md section 1: float arithmetic (addImm, addAbs, subtractImm, subtractAbs, multiplyImm,
multiplyAbs, divideImm, divideAbs) always completes, and its result is a NaN exactly where IEEE
754 gives one; which NaN is free (the spec's decision D10, log 3). -/
def Obligations.FloatResultIsNanExactlyInNanCases : Prop :=
  ∀ (s : State) (op : TypedOp) (p : Pod) (f : FloatFormat) (dst : DataAddr) (x : Operand),
    Arithmetic op → p.valueType = .float f → OperandsReady s p dst x →
    ∃ t v, exec (typedInstr op p dst x) s = .next t ∧
      StoredAt s t p dst v (s.ip + typedLength p x) ∧ v < 2 ^ (magnitudeBits f + 1) ∧
      (isNaN f v = true ↔ NanCase op f (valueAt s p dst) (operandValue s p x)) ∧
      (¬ NanCase op f (valueAt s p dst) (operandValue s p x) → t.nanDraws = s.nanDraws)

/-- 41_alu.md section 1: Add of finite floats stores the exact sum rounded once, roundTiesToEven with
subnormals kept; an exact zero is `-0` only if both operands are negative zeros. Rounding and signed
zeros are the spec's general-knowledge passages G1 to G3. -/
def Obligations.FloatAddRoundsTheExactSum : Prop :=
  ∀ (s : State) (p : Pod) (f : FloatFormat) (dst : DataAddr) (x : Operand),
    p.valueType = .float f → OperandsReady s p dst x →
    FinitePattern f (valueAt s p dst) → FinitePattern f (operandValue s p x) →
    ∀ sum : Int, sum = signedUnits f (valueAt s p dst) + signedUnits f (operandValue s p x) →
    (sum ≠ 0 → ∃ m, RoundsToEven f sum.natAbs 1 m ∧
      StoresResult s .add p dst x (pattern f (sum < 0) m)) ∧
    (sum = 0 → StoresResult s .add p dst x
      (pattern f (signBit f (valueAt s p dst) && signBit f (operandValue s p x)) 0))

/-- 41_alu.md section 1: Subtract of finite floats stores the exact difference `mem[dst]` minus operand
rounded once (general-knowledge passages G1 to G3); an exact zero is `-0` only for `-0` minus `+0`. -/
def Obligations.FloatSubtractRoundsTheExactDifference : Prop :=
  ∀ (s : State) (p : Pod) (f : FloatFormat) (dst : DataAddr) (x : Operand),
    p.valueType = .float f → OperandsReady s p dst x →
    FinitePattern f (valueAt s p dst) → FinitePattern f (operandValue s p x) →
    ∀ diff : Int, diff = signedUnits f (valueAt s p dst) - signedUnits f (operandValue s p x) →
    (diff ≠ 0 → ∃ m, RoundsToEven f diff.natAbs 1 m ∧
      StoresResult s .subtract p dst x (pattern f (diff < 0) m)) ∧
    (diff = 0 → StoresResult s .subtract p dst x
      (pattern f (signBit f (valueAt s p dst) && !signBit f (operandValue s p x)) 0))

/-- 41_alu.md section 1: Multiply of finite floats stores the exact product rounded once, its sign the
XOR of the operands' signs (general-knowledge passages G1 to G3). -/
def Obligations.FloatMultiplyRoundsTheExactProduct : Prop :=
  ∀ (s : State) (p : Pod) (f : FloatFormat) (dst : DataAddr) (x : Operand),
    p.valueType = .float f → OperandsReady s p dst x →
    FinitePattern f (valueAt s p dst) → FinitePattern f (operandValue s p x) →
    ∃ m, RoundsToEven f
        (units f (magnitude f (valueAt s p dst)) * units f (magnitude f (operandValue s p x)))
        (2 ^ unitScale f) m ∧
      StoresResult s .multiply p dst x
        (pattern f (signBit f (valueAt s p dst) ^^ signBit f (operandValue s p x)) m)

/-- 41_alu.md section 1: Divide of finite floats by a nonzero one stores the exact quotient rounded
once, its sign the XOR of the operands' signs (general-knowledge passages G1 to G3). -/
def Obligations.FloatDivideRoundsTheExactQuotient : Prop :=
  ∀ (s : State) (p : Pod) (f : FloatFormat) (dst : DataAddr) (x : Operand),
    p.valueType = .float f → OperandsReady s p dst x →
    FinitePattern f (valueAt s p dst) → FinitePattern f (operandValue s p x) →
    isZero f (operandValue s p x) = false →
    ∃ m, RoundsToEven f (units f (magnitude f (valueAt s p dst)) * 2 ^ unitScale f)
        (units f (magnitude f (operandValue s p x))) m ∧
      StoresResult s .divide p dst x
        (pattern f (signBit f (valueAt s p dst) ^^ signBit f (operandValue s p x)) m)

/-- 41_alu.md section 1, the table of special cases (general-knowledge passage G3): infinities in Add
and Subtract. -/
def Obligations.FloatAddSubtractInfinities : Prop :=
  ∀ (s : State) (p : Pod) (f : FloatFormat) (dst : DataAddr) (x : Operand),
    p.valueType = .float f → OperandsReady s p dst x →
    ∀ a b : Nat, a = valueAt s p dst → b = operandValue s p x →
    (isInf f a = true → isNaN f b = false → (isInf f b = true → signBit f b = signBit f a) →
      StoresResult s .add p dst x (pattern f (signBit f a) (infMagnitude f))) ∧
    (FinitePattern f a → isInf f b = true →
      StoresResult s .add p dst x (pattern f (signBit f b) (infMagnitude f))) ∧
    (isInf f a = true → isNaN f b = false → (isInf f b = true → signBit f b ≠ signBit f a) →
      StoresResult s .subtract p dst x (pattern f (signBit f a) (infMagnitude f))) ∧
    (FinitePattern f a → isInf f b = true →
      StoresResult s .subtract p dst x (pattern f (!signBit f b) (infMagnitude f)))

/-- 41_alu.md section 1, the table of special cases (general-knowledge passage G3): infinities in
Multiply, infinities and a zero divisor in Divide. Float division by zero is no fault. -/
def Obligations.FloatMultiplyDivideInfinitiesAndZeros : Prop :=
  ∀ (s : State) (p : Pod) (f : FloatFormat) (dst : DataAddr) (x : Operand),
    p.valueType = .float f → OperandsReady s p dst x →
    ∀ a b : Nat, a = valueAt s p dst → b = operandValue s p x →
    (isInf f a = true → isNaN f b = false → isZero f b = false →
      StoresResult s .multiply p dst x (pattern f (signBit f a ^^ signBit f b) (infMagnitude f))) ∧
    (isInf f b = true → isNaN f a = false → isZero f a = false →
      StoresResult s .multiply p dst x (pattern f (signBit f a ^^ signBit f b) (infMagnitude f))) ∧
    (isInf f a = true → FinitePattern f b →
      StoresResult s .divide p dst x (pattern f (signBit f a ^^ signBit f b) (infMagnitude f))) ∧
    (FinitePattern f a → isInf f b = true →
      StoresResult s .divide p dst x (pattern f (signBit f a ^^ signBit f b) 0)) ∧
    (FinitePattern f a → isZero f a = false → isZero f b = true →
      StoresResult s .divide p dst x (pattern f (signBit f a ^^ signBit f b) (infMagnitude f)))

/-- The rounding function is IEEE 754's roundTiesToEven, in every binary format, on every nonnegative
fraction: its answer is the one nearest magnitude, the even one of two, infinity beyond the largest
finite value, and no other magnitude is (general-knowledge passages G1 and G2 of the spec). -/
def Obligations.RoundUnitsIsRoundTiesToEven : Prop :=
  ∀ (f : FloatFormat) (n d m : Nat), 1 ≤ f.fracBits → 0 < d →
    (RoundsToEven f n d m ↔ m = roundUnits f n d)

/-- The value of a magnitude grows with the magnitude, subnormals, normals and infinity included: two
patterns of one sign stand for one value only if they are equal. -/
def Obligations.UnitsStrictlyIncrease : Prop :=
  ∀ (f : FloatFormat) (m q : Nat), m < q → units f m < units f q

/-- 41_alu.md section 1 (the spec's decision D10, log 3): the NaNs that raw bits stand for are exactly
the NaN patterns of the format. -/
def Obligations.NanPatternsAreExactlyTheNans : Prop :=
  ∀ (p : Pod) (f : FloatFormat), p.valueType = .float f →
    (∀ raw, isNaN f (nanPattern f raw) = true ∧ nanPattern f raw < 2 ^ (magnitudeBits f + 1)) ∧
    (∀ v, v < 2 ^ (magnitudeBits f + 1) → isNaN f v = true → ∃ raw, nanPattern f raw = v)

/-! ## Compare and the jumps -/

/-- 42_compare_branch.md sections 1 and 2: Compare (compareImm, compareAbs) on the integer Pods, in
both shapes, sets `cmp` by
unsigned order and changes nothing but `cmp` and `ip`. -/
def Obligations.IntegerCompareIsUnsigned : Prop :=
  ∀ (s : State) (p : Pod) (n : Nat) (dst : DataAddr) (x : Operand), p.valueType = .unsigned n →
    InRegion s p dst → OperandInRegion s p x →
    ∃ c, exec (typedInstr .compare p dst x) s =
        .next { s with cmp := c, ip := s.ip + typedLength p x } ∧
      (c = .less ↔ valueAt s p dst < operandValue s p x) ∧
      (c = .equal ↔ valueAt s p dst = operandValue s p x) ∧
      (c = .greater ↔ operandValue s p x < valueAt s p dst) ∧ c ≠ .unset

/-- 42_compare_branch.md sections 1 and 2: Compare (compareImm, compareAbs) on the float Pods, in both
shapes, sets Unset if an
operand is a NaN and else orders by value; equal zeros and the order of infinities are the spec's
general-knowledge passage G4. -/
def Obligations.FloatCompareIsIeee : Prop :=
  ∀ (s : State) (p : Pod) (f : FloatFormat) (dst : DataAddr) (x : Operand), p.valueType = .float f →
    InRegion s p dst → OperandInRegion s p x →
    ∃ c, exec (typedInstr .compare p dst x) s =
        .next { s with cmp := c, ip := s.ip + typedLength p x } ∧
      (c = .unset ↔ isNaN f (valueAt s p dst) = true ∨ isNaN f (operandValue s p x) = true) ∧
      (c ≠ .unset →
        (c = .less ↔ signedUnits f (valueAt s p dst) < signedUnits f (operandValue s p x)) ∧
        (c = .equal ↔ signedUnits f (valueAt s p dst) = signedUnits f (operandValue s p x)) ∧
        (c = .greater ↔ signedUnits f (operandValue s p x) < signedUnits f (valueAt s p dst)))

/-- 42_compare_branch.md section 3: a jump that is taken to a target up to P sets `ip` and nothing else:
Jump always, JumpIfEqual on Equal, JumpIfLessThan on Less. -/
def Obligations.TakenJumpGoesToItsTarget : Prop :=
  ∀ (s : State) (g : Target), g.toNat ≤ s.prog.length →
    exec (.jump g) s = .next { s with ip := g.toNat } ∧
    (s.cmp = .equal → exec (.jumpIfEqual g) s = .next { s with ip := g.toNat }) ∧
    (s.cmp = .less → exec (.jumpIfLessThan g) s = .next { s with ip := g.toNat })

/-- 42_compare_branch.md section 3: a conditional jump that is not taken, Unset included, falls through
to `ip0 + 9`, whatever its target is. -/
def Obligations.UntakenJumpFallsThrough : Prop :=
  ∀ (s : State) (g : Target),
    (s.cmp ≠ .equal → exec (.jumpIfEqual g) s = .next { s with ip := s.ip + 9 }) ∧
    (s.cmp ≠ .less → exec (.jumpIfLessThan g) s = .next { s with ip := s.ip + 9 })

/-- 42_compare_branch.md section 3 (the spec's decisions D3 and D7): a taken jump beyond P raises
UnexpectedEndOfProgram and changes nothing else. -/
def Obligations.JumpBeyondTheEndFaults : Prop :=
  ∀ (s : State) (g : Target), s.prog.length < g.toNat →
    exec (.jump g) s = .next (FaultedFrom s .unexpectedEndOfProgram) ∧
    (s.cmp = .equal →
      exec (.jumpIfEqual g) s = .next (FaultedFrom s .unexpectedEndOfProgram)) ∧
    (s.cmp = .less →
      exec (.jumpIfLessThan g) s = .next (FaultedFrom s .unexpectedEndOfProgram))

/-! ## Print -/

/-- 43_print.md sections 1 and 2 (the event's form is the spec's decision D13): Print emits its Pod and
the bytes at `addr`, and changes nothing but `out` and `ip`. -/
def Obligations.PrintEmitsTheBytesAtAddr : Prop :=
  ∀ (s : State) (p : Pod) (addr : DataAddr), InRegion s p addr →
    exec (.print p addr) s = .next { s with
      out := s.out ++ [⟨p, readBytes s.mem addr.toNat p.width⟩], ip := s.ip + 6 }
end

