-- ==== Sys2Proof/Laws/Bytes.lean ====
section
/-! SUPPORT. Little-endian byte sequences: lengths, and reading back what was written. -/

namespace Sys2Proof

@[simp] theorem length_leBytes (k v : Nat) : (leBytes k v).length = k := by
  induction k generalizing v with
  | zero => rfl
  | succ k ih => simp [leBytes, ih]

theorem le_leBytes (k v : Nat) : le (leBytes k v) = v % 256 ^ k := by
  induction k generalizing v with
  | zero => simp [leBytes, le, Nat.mod_one]
  | succ k ih =>
    have h := Nat.mod_mul (x := v) (a := 256) (b := 256 ^ k)
    simp only [leBytes, le, ih, BitVec.toNat_ofNat, Nat.pow_succ']
    omega

theorem le_leBytes_of_lt {k v : Nat} (h : v < 256 ^ k) : le (leBytes k v) = v := by
  rw [le_leBytes, Nat.mod_eq_of_lt h]

theorem leBytes_le (bs : List Byte) : leBytes bs.length (le bs) = bs := by
  induction bs with
  | nil => rfl
  | cons b bs ih =>
    have hb := b.isLt
    have h0 : BitVec.ofNat 8 (b.toNat + 256 * le bs) = b := by
      apply BitVec.eq_of_toNat_eq
      simp only [BitVec.toNat_ofNat]
      omega
    have h1 : (b.toNat + 256 * le bs) / 256 = le bs := by omega
    simp [leBytes, le, h0, h1, ih]

theorem le_lt (bs : List Byte) : le bs < 256 ^ bs.length := by
  induction bs with
  | nil => simp [le]
  | cons b bs ih =>
    have hb := b.isLt
    simp only [le, List.length_cons, Nat.pow_succ']
    omega

theorem leBytes_mod (k v : Nat) : leBytes k (v % 256 ^ k) = leBytes k v := by
  have h := leBytes_le (leBytes k v)
  rwa [length_leBytes, le_leBytes] at h

/-- `takeBytes` splits off a prefix of exactly the length asked for. -/
theorem takeBytes_append (front rest : List Byte) :
    takeBytes front.length (front ++ rest) = some (front, rest) := by
  induction front with
  | nil => cases rest <;> rfl
  | cons b front ih => simp [takeBytes, ih]

/-- All that `takeBytes` can answer. -/
theorem takeBytes_eq_some {n : Nat} {bs front rest : List Byte}
    (h : takeBytes n bs = some (front, rest)) : bs = front ++ rest ∧ front.length = n := by
  induction n generalizing bs front with
  | zero =>
    cases bs <;> (simp only [takeBytes, Option.some.injEq, Prod.mk.injEq] at h; simp [← h.1, ← h.2])
  | succ n ih =>
    cases bs with
    | nil => simp [takeBytes] at h
    | cons b bs =>
      simp only [takeBytes] at h
      split at h
      · simp at h
      · rename_i _ g _ hg
        simp only [Option.some.injEq, Prod.mk.injEq] at h
        obtain ⟨rfl, rfl⟩ := h
        obtain ⟨h1, h2⟩ := ih hg
        simp [h1, h2]

/-- `takeBytes` fails exactly on a sequence that is too short. -/
theorem takeBytes_eq_none {n : Nat} {bs : List Byte} : takeBytes n bs = none ↔ bs.length < n := by
  induction n generalizing bs with
  | zero => cases bs <;> simp [takeBytes]
  | succ n ih =>
    cases bs with
    | nil => simp [takeBytes]
    | cons b bs =>
      have hi := ih (bs := bs)
      cases hg : takeBytes n bs with
      | none => simp [takeBytes, hg, hi.1 hg]
      | some r =>
        have : ¬ bs.length < n := fun hlt => by simp [hi.2 hlt] at hg
        simpa [takeBytes, hg] using this

theorem Pod.width_pos (p : Pod) : 0 < p.width := by cases p <;> decide

theorem Pod.ofCode_code (p : Pod) : Pod.ofCode p.code = some p := by cases p <;> rfl

/-- The bytes of a Pod hold its integer type exactly. -/
theorem Pod.pow_width_of_unsigned {p : Pod} {n : Nat} (h : p.valueType = .unsigned n) :
    256 ^ p.width = 2 ^ n := by
  cases p <;> simp_all [Pod.valueType, Pod.width] <;> subst h <;> rfl

end Sys2Proof
end

