-- ==== Sys2Proof/Laws/Decode.lean ====
section
/-! SUPPORT. Fields and Metadata bytes: what taking a field can answer, and the Metadata byte's round
trip. -/

namespace Sys2Proof

/-- Taking a field of bytes that are there. -/
theorem takeField_append (field rest : List Byte) :
    takeField field.length (field ++ rest) = .ok (le field, rest) := by
  simp [takeField, takeBytes_append]

theorem takeField_leBytes {n v : Nat} (h : v < 256 ^ n) (rest : List Byte) :
    takeField n (leBytes n v ++ rest) = .ok (v, rest) := by
  have := takeField_append (leBytes n v) rest
  rwa [length_leBytes, le_leBytes_of_lt h] at this

/-- All that taking a field can answer. -/
theorem takeField_cases (n : Nat) (bs : List Byte) :
    (∃ field rest, bs = field ++ rest ∧ field.length = n ∧
      takeField n bs = .ok (le field, rest)) ∨
    (bs.length < n ∧ takeField n bs = .error .truncated) := by
  cases h : takeBytes n bs with
  | none => exact .inr ⟨takeBytes_eq_none.1 h, by simp [takeField, h]⟩
  | some r =>
    obtain ⟨field, rest⟩ := r
    obtain ⟨h1, h2⟩ := takeBytes_eq_some h
    exact .inl ⟨field, rest, h1, h2, by simp [takeField, h]⟩

@[simp] theorem metadataPod_metadataByte (p : Pod) (a : Bool) :
    metadataPod (metadataByte p a) = .ok p := by cases p <;> cases a <;> rfl

@[simp] theorem metadataAbsolute_metadataByte (p : Pod) (a : Bool) :
    metadataAbsolute (metadataByte p a) = a := by
  cases p <;> cases a <;> rfl

/-- A Metadata byte that is accepted is the one its Pod and its bit 4 give. -/
theorem metadataByte_of_metadataPod :
    ∀ (m : Byte) (p : Pod), metadataPod m = .ok p → m = metadataByte p (metadataAbsolute m) := by
  intro m p h
  have key : ∀ m : Byte, (metadataPod m).toOption.all
      (fun q => m = metadataByte q (metadataAbsolute m)) = true := by decide +kernel
  have := key m
  rw [h] at this
  simpa [Except.toOption] using this

end Sys2Proof
end

