-- ==== Sys2Proof/Laws/Float.lean ====
section
/-! SUPPORT. The fields of a float pattern: what `pattern` writes, `magnitude` and `signBit` read. -/

namespace Sys2Proof.Machine

theorem magnitude_lt (f : FloatFormat) (x : Nat) : magnitude f x < 2 ^ magnitudeBits f :=
  Nat.mod_lt _ (Nat.two_pow_pos _)

theorem infMagnitude_add (f : FloatFormat) :
    infMagnitude f + 2 ^ f.fracBits = 2 ^ magnitudeBits f := by
  have h := Nat.two_pow_pos f.expBits
  rw [infMagnitude, magnitudeBits, pow_add, ← Nat.succ_mul]
  congr 1
  omega

theorem infMagnitude_lt (f : FloatFormat) : infMagnitude f < 2 ^ magnitudeBits f := by
  have := infMagnitude_add f
  have := Nat.two_pow_pos f.fracBits
  omega

theorem magnitude_pattern {f : FloatFormat} {m : Nat} (s : Bool) (h : m < 2 ^ magnitudeBits f) :
    magnitude f (pattern f s m) = m := by
  cases s <;> simp [magnitude, pattern, Nat.mod_eq_of_lt h]

theorem signBit_pattern {f : FloatFormat} {m : Nat} (s : Bool) (h : m < 2 ^ magnitudeBits f) :
    signBit f (pattern f s m) = s := by
  cases s <;> simp [signBit, pattern, Nat.div_eq_of_lt h, Nat.add_div_left]

theorem pattern_lt {f : FloatFormat} {m : Nat} (s : Bool) (h : m < 2 ^ magnitudeBits f) :
    pattern f s m < 2 ^ (magnitudeBits f + 1) := by
  rw [pow_succ]
  cases s <;> simp [pattern] <;> omega

/-- A pattern is its sign and its magnitude. -/
theorem pattern_signBit_magnitude {f : FloatFormat} {x : Nat} (h : x < 2 ^ (magnitudeBits f + 1)) :
    pattern f (signBit f x) (magnitude f x) = x := by
  have hd := Nat.div_add_mod x (2 ^ magnitudeBits f)
  have hq : x / 2 ^ magnitudeBits f < 2 := Nat.div_lt_of_lt_mul (by rwa [pow_succ] at h)
  rcases Nat.le_one_iff_eq_zero_or_eq_one.1 (Nat.lt_succ_iff.1 hq) with hz | hz <;>
    rw [hz] at hd <;> simp [pattern, signBit, magnitude, hz] <;> omega

theorem roundUnits_le (f : FloatFormat) (n d : Nat) : roundUnits f n d ≤ infMagnitude f :=
  Nat.min_le_right _ _

end Sys2Proof.Machine
end

