-- ==== Sys2Proof/Laws/HostPort.lean ====
section
/-! SUPPORT. The host's operations on an instance, each said once (70_reset_and_hazards.md R230). -/

namespace Sys2Proof.Machine

@[simp] theorem construct_begun (prog : List Byte) (n d : Nat) :
    (construct prog n d).begun = false := rfl
@[simp] theorem construct_core (prog : List Byte) (n d : Nat) :
    (construct prog n d).core = { State.resetWith prog n with nanDraws := d } := rfl
@[simp] theorem callRun_begun (x : Instance) : (callRun x).begun = true := rfl
@[simp] theorem callRun_core (x : Instance) : (callRun x).core = x.core := rfl

/-- A step keeps the record of the call. -/
@[simp] theorem stepRun_begun (x : Instance) : (stepRun x).begun = x.begun := by
  unfold stepRun
  split
  · split <;> rfl
  · rfl

/-- An instance is not running before the first `run()` and after it has stopped. -/
theorem resettable_iff (x : Instance) :
    resettable x = true ↔ x.begun = false ∨ x.core.status.state ≠ .running := by
  simp [resettable, stopped]

end Sys2Proof.Machine
end

