-- ==== Sys2Proof/Laws/Memory.lean ====
section
/-! SUPPORT. The memory operations: what a read gives after a write, and that every write keeps the
canonical form and the bound. -/

namespace Sys2Proof.Machine

/-- A canonical memory's listed addresses lie above a bound that its head respects. -/
theorem readByte_eq_zero_of_all_gt {m : Memory} {a : Nat} (h : ∀ c ∈ m, a < c.1) :
    readByte m a = 0 := by
  induction m with
  | nil => rfl
  | cons c rest ih =>
    obtain ⟨b, v⟩ := c
    have hb : a < b := h (b, v) (by simp)
    simp only [readByte, if_neg (Nat.ne_of_gt hb)]
    exact ih fun c hc => h c (by simp [hc])

theorem wf_cons {a : Nat} {v : Byte} {rest : Memory} :
    Memory.wf ((a, v) :: rest) = true ↔
      v ≠ 0 ∧ (∀ c ∈ rest, a < c.1) ∧ Memory.wf rest = true := by
  simp [Memory.wf, and_assoc]

/-- The addresses a write can list. -/
theorem mem_writeByte {m : Memory} {a : Nat} {v : Byte} {c : Host.Cell}
    (h : c ∈ writeByte m a v) : c.1 = a ∨ c ∈ m := by
  induction m with
  | nil =>
    simp only [writeByte] at h
    split at h <;> simp_all
  | cons d rest ih =>
    obtain ⟨b, w⟩ := d
    simp only [writeByte] at h
    split_ifs at h <;> simp only [List.mem_cons] at h ⊢
    · exact .inr h
    · rcases h with rfl | h
      · exact .inl rfl
      · exact .inr h
    · exact .inr (.inr h)
    · rcases h with rfl | h
      · exact .inl rfl
      · exact .inr (.inr h)
    · rcases h with rfl | h
      · exact .inr (.inl rfl)
      · exact (ih h).imp id .inr

/-- A write keeps the canonical form. -/
theorem wf_writeByte {m : Memory} (h : Memory.wf m = true) (a : Nat) (v : Byte) :
    Memory.wf (writeByte m a v) = true := by
  induction m with
  | nil =>
    simp only [writeByte]
    split_ifs with hv
    · rfl
    · simpa [Memory.wf] using hv
  | cons d rest ih =>
    obtain ⟨b, w⟩ := d
    have h0 := h
    obtain ⟨hw, hall, hrest⟩ := wf_cons.1 h
    simp only [writeByte]
    split_ifs with h1 h2 h3 h4
    · exact h0
    · refine wf_cons.2 ⟨h2, fun c hc => ?_, h0⟩
      rcases List.mem_cons.1 hc with rfl | hc
      · exact h1
      · exact Nat.lt_trans h1 (hall c hc)
    · exact hrest
    · subst h3; exact wf_cons.2 ⟨h4, hall, hrest⟩
    · refine wf_cons.2 ⟨hw, fun c hc => ?_, ih hrest⟩
      rcases mem_writeByte hc with hc | hc
      · rw [hc]; omega
      · exact hall c hc

/-- A write lists no address at or above a bound that it respects. -/
theorem writeByte_bounded {m : Memory} {a n : Nat} {v : Byte} (h : ∀ c ∈ m, c.1 < n) (ha : a < n) :
    ∀ c ∈ writeByte m a v, c.1 < n := by
  intro c hc
  rcases mem_writeByte hc with hc | hc
  · omega
  · exact h c hc

theorem readByte_writeByte_same {m : Memory} (h : Memory.wf m = true) (a : Nat) (v : Byte) :
    readByte (writeByte m a v) a = v := by
  induction m with
  | nil => simp only [writeByte]; split_ifs with hv <;> simp [readByte, hv]
  | cons d rest ih =>
    obtain ⟨b, w⟩ := d
    obtain ⟨hw, hall, hrest⟩ := wf_cons.1 h
    simp only [writeByte]
    split_ifs with h1 h2 h3 h4
    · have hz : readByte ((b, w) :: rest) a = 0 :=
        readByte_eq_zero_of_all_gt fun c hc => by
          rcases List.mem_cons.1 hc with rfl | hc
          · exact h1
          · exact Nat.lt_trans h1 (hall c hc)
      rw [hz, h2]
    · simp [readByte]
    · subst h3
      rw [readByte_eq_zero_of_all_gt hall, h4]
    · simp [readByte]
    · simp only [readByte, if_neg (Ne.symm h3)]
      exact ih hrest

theorem readByte_writeByte_other (m : Memory) {a x : Nat} (v : Byte) (hx : x ≠ a) :
    readByte (writeByte m a v) x = readByte m x := by
  induction m with
  | nil => simp only [writeByte]; split_ifs <;> simp [readByte, Ne.symm hx]
  | cons d rest ih =>
    obtain ⟨b, w⟩ := d
    simp only [writeByte]
    split_ifs with h1 h2 h3 h4
    · rfl
    · simp [readByte, Ne.symm hx]
    · subst h3; simp [readByte, Ne.symm hx]
    · subst h3; simp [readByte, Ne.symm hx]
    · simp only [readByte, ih]

/-- Two canonical memories that read alike are equal. -/
theorem Memory.eq_of_readByte_eq {m k : Memory} (hm : Memory.wf m = true) (hk : Memory.wf k = true)
    (h : ∀ a, readByte m a = readByte k a) : m = k := by
  induction m generalizing k with
  | nil =>
    cases k with
    | nil => rfl
    | cons d rest =>
      obtain ⟨b, w⟩ := d
      have := h b
      simp [readByte] at this
      exact absurd this.symm (wf_cons.1 hk).1
  | cons c m ih =>
    obtain ⟨a, v⟩ := c
    obtain ⟨hv, ham, hmw⟩ := wf_cons.1 hm
    cases k with
    | nil =>
      have := h a
      simp [readByte] at this
      exact absurd this hv
    | cons d k =>
      obtain ⟨b, w⟩ := d
      obtain ⟨hw, hbk, hkw⟩ := wf_cons.1 hk
      have hab : a = b := by
        rcases Nat.lt_trichotomy a b with hlt | heq | hgt
        · have h1 := h a
          rw [readByte_eq_zero_of_all_gt (m := (b, w) :: k)] at h1
          · simp [readByte] at h1; exact absurd h1 hv
          · intro c hc
            rcases List.mem_cons.1 hc with rfl | hc
            · exact hlt
            · exact Nat.lt_trans hlt (hbk c hc)
        · exact heq
        · have h1 := h b
          rw [readByte_eq_zero_of_all_gt (m := (a, v) :: m)] at h1
          · simp [readByte] at h1; exact absurd h1.symm hw
          · intro c hc
            rcases List.mem_cons.1 hc with rfl | hc
            · exact hgt
            · exact Nat.lt_trans hgt (ham c hc)
      subst hab
      have hvw : v = w := by simpa [readByte] using h a
      subst hvw
      congr 1
      refine ih hmw hkw fun x => ?_
      by_cases hx : a = x
      · subst hx
        rw [readByte_eq_zero_of_all_gt ham, readByte_eq_zero_of_all_gt hbk]
      · simpa [readByte, hx] using h x

@[simp] theorem length_readBytes (m : Memory) (o k : Nat) : (readBytes m o k).length = k := by
  induction k generalizing o with
  | zero => rfl
  | succ k ih => simp [readBytes, ih]

theorem wf_writeBytes {m : Memory} (h : Memory.wf m = true) (o : Nat) (bs : List Byte) :
    Memory.wf (writeBytes m o bs) = true := by
  induction bs generalizing m o with
  | nil => exact h
  | cons b bs ih => exact ih (wf_writeByte h o b) (o + 1)

theorem writeBytes_bounded {m : Memory} {o n : Nat} {bs : List Byte} (h : ∀ c ∈ m, c.1 < n)
    (ho : o + bs.length ≤ n) : ∀ c ∈ writeBytes m o bs, c.1 < n := by
  induction bs generalizing m o with
  | nil => exact h
  | cons b bs ih =>
    simp only [List.length_cons] at ho
    exact ih (writeByte_bounded h (by omega)) (by omega)

theorem readByte_writeBytes_outside (m : Memory) (o : Nat) (bs : List Byte) {a : Nat}
    (ha : a < o ∨ o + bs.length ≤ a) : readByte (writeBytes m o bs) a = readByte m a := by
  induction bs generalizing m o with
  | nil => rfl
  | cons b bs ih =>
    simp only [List.length_cons] at ha
    simp only [writeBytes]
    rw [ih _ _ (by omega), readByte_writeByte_other _ _ (by omega)]

theorem readBytes_writeBytes_same {m : Memory} (h : Memory.wf m = true) (o : Nat) (bs : List Byte) :
    readBytes (writeBytes m o bs) o bs.length = bs := by
  induction bs generalizing m o with
  | nil => rfl
  | cons b bs ih =>
    simp only [writeBytes, List.length_cons, readBytes, ih (wf_writeByte h o b)]
    rw [readByte_writeBytes_outside _ _ _ (by omega), readByte_writeByte_same h]

/-- Reading the bytes of a range depends on nothing outside it. -/
theorem readBytes_congr {m k : Memory} {o n : Nat}
    (h : ∀ a, o ≤ a → a < o + n → readByte m a = readByte k a) :
    readBytes m o n = readBytes k o n := by
  induction n generalizing o with
  | zero => rfl
  | succ n ih =>
    simp only [readBytes]
    rw [h o (by omega) (by omega), ih fun a h1 h2 => h a (by omega) (by omega)]

end Sys2Proof.Machine
end

