-- ==== Sys2Proof/Laws/State.lean ====
section
/-! SUPPORT. One lemma for each field of each update of the state, so that no proof unfolds a record
update. -/

namespace Sys2Proof.Machine

@[simp] theorem advance_ip (s : State) (n : Nat) : (advance s n).ip = s.ip + n := rfl
@[simp] theorem advance_cmp (s : State) (n : Nat) : (advance s n).cmp = s.cmp := rfl
@[simp] theorem advance_mem (s : State) (n : Nat) : (advance s n).mem = s.mem := rfl
@[simp] theorem advance_status (s : State) (n : Nat) : (advance s n).status = s.status := rfl
@[simp] theorem advance_out (s : State) (n : Nat) : (advance s n).out = s.out := rfl
@[simp] theorem advance_prog (s : State) (n : Nat) : (advance s n).prog = s.prog := rfl
@[simp] theorem advance_capacity (s : State) (n : Nat) : (advance s n).capacity = s.capacity := rfl
@[simp] theorem advance_nanDraws (s : State) (n : Nat) : (advance s n).nanDraws = s.nanDraws := rfl

@[simp] theorem emit_ip (s : State) (p : Pod) (bytes : List Byte) : (emit s p bytes).ip = s.ip := rfl
@[simp] theorem emit_cmp (s : State) (p : Pod) (bytes : List Byte) : (emit s p bytes).cmp = s.cmp := rfl
@[simp] theorem emit_mem (s : State) (p : Pod) (bytes : List Byte) : (emit s p bytes).mem = s.mem := rfl
@[simp] theorem emit_status (s : State) (p : Pod) (bytes : List Byte) : (emit s p bytes).status = s.status := rfl
@[simp] theorem emit_out (s : State) (p : Pod) (bytes : List Byte) : (emit s p bytes).out = s.out ++ [⟨p, bytes⟩] := rfl
@[simp] theorem emit_prog (s : State) (p : Pod) (bytes : List Byte) : (emit s p bytes).prog = s.prog := rfl
@[simp] theorem emit_capacity (s : State) (p : Pod) (bytes : List Byte) : (emit s p bytes).capacity = s.capacity := rfl
@[simp] theorem emit_nanDraws (s : State) (p : Pod) (bytes : List Byte) : (emit s p bytes).nanDraws = s.nanDraws := rfl

@[simp] theorem raiseFault_ip (s : State) (f : Fault) : (raiseFault s f).ip = s.ip := rfl
@[simp] theorem raiseFault_cmp (s : State) (f : Fault) : (raiseFault s f).cmp = s.cmp := rfl
@[simp] theorem raiseFault_mem (s : State) (f : Fault) : (raiseFault s f).mem = s.mem := rfl
@[simp] theorem raiseFault_status (s : State) (f : Fault) : (raiseFault s f).status = ⟨.faulted, some f⟩ := rfl
@[simp] theorem raiseFault_out (s : State) (f : Fault) : (raiseFault s f).out = s.out := rfl
@[simp] theorem raiseFault_prog (s : State) (f : Fault) : (raiseFault s f).prog = s.prog := rfl
@[simp] theorem raiseFault_capacity (s : State) (f : Fault) : (raiseFault s f).capacity = s.capacity := rfl
@[simp] theorem raiseFault_nanDraws (s : State) (f : Fault) : (raiseFault s f).nanDraws = s.nanDraws := rfl

@[simp] theorem halt_ip (s : State) : (halt s).ip = s.ip := rfl
@[simp] theorem halt_cmp (s : State) : (halt s).cmp = s.cmp := rfl
@[simp] theorem halt_mem (s : State) : (halt s).mem = s.mem := rfl
@[simp] theorem halt_status (s : State) : (halt s).status = { s.status with state := .halted } := rfl
@[simp] theorem halt_out (s : State) : (halt s).out = s.out := rfl
@[simp] theorem halt_prog (s : State) : (halt s).prog = s.prog := rfl
@[simp] theorem halt_capacity (s : State) : (halt s).capacity = s.capacity := rfl
@[simp] theorem halt_nanDraws (s : State) : (halt s).nanDraws = s.nanDraws := rfl

@[simp] theorem withFetchWord_ip (s : State) (nbits w : Nat) : (s.withFetchWord nbits w).ip = s.ip := rfl
@[simp] theorem withFetchWord_cmp (s : State) (nbits w : Nat) : (s.withFetchWord nbits w).cmp = s.cmp := rfl
@[simp] theorem withFetchWord_mem (s : State) (nbits w : Nat) : (s.withFetchWord nbits w).mem = s.mem := rfl
@[simp] theorem withFetchWord_status (s : State) (nbits w : Nat) : (s.withFetchWord nbits w).status = s.status := rfl
@[simp] theorem withFetchWord_out (s : State) (nbits w : Nat) : (s.withFetchWord nbits w).out = s.out := rfl
@[simp] theorem withFetchWord_prog (s : State) (nbits w : Nat) : (s.withFetchWord nbits w).prog = placeBytes s.prog s.ip (tableBytes nbits w) := rfl
@[simp] theorem withFetchWord_capacity (s : State) (nbits w : Nat) : (s.withFetchWord nbits w).capacity = s.capacity := rfl
@[simp] theorem withFetchWord_nanDraws (s : State) (nbits w : Nat) : (s.withFetchWord nbits w).nanDraws = s.nanDraws := rfl

@[simp] theorem resetWith_ip (prog : List Byte) (capacity : Nat) : (State.resetWith prog capacity).ip = 0 := rfl
@[simp] theorem resetWith_cmp (prog : List Byte) (capacity : Nat) : (State.resetWith prog capacity).cmp = .unset := rfl
@[simp] theorem resetWith_mem (prog : List Byte) (capacity : Nat) : (State.resetWith prog capacity).mem = [] := rfl
@[simp] theorem resetWith_status (prog : List Byte) (capacity : Nat) : (State.resetWith prog capacity).status = ⟨.running, none⟩ := rfl
@[simp] theorem resetWith_out (prog : List Byte) (capacity : Nat) : (State.resetWith prog capacity).out = [] := rfl
@[simp] theorem resetWith_prog (prog : List Byte) (capacity : Nat) : (State.resetWith prog capacity).prog = prog := rfl
@[simp] theorem resetWith_capacity (prog : List Byte) (capacity : Nat) : (State.resetWith prog capacity).capacity = capacity := rfl
@[simp] theorem resetWith_nanDraws (prog : List Byte) (capacity : Nat) : (State.resetWith prog capacity).nanDraws = 0 := rfl

@[simp] theorem countDraw_ip (s : State) (r : AluResult) : (countDraw s r).ip = s.ip := by
  cases r <;> rfl
@[simp] theorem countDraw_cmp (s : State) (r : AluResult) : (countDraw s r).cmp = s.cmp := by
  cases r <;> rfl
@[simp] theorem countDraw_mem (s : State) (r : AluResult) : (countDraw s r).mem = s.mem := by
  cases r <;> rfl
@[simp] theorem countDraw_status (s : State) (r : AluResult) : (countDraw s r).status = s.status := by
  cases r <;> rfl
@[simp] theorem countDraw_out (s : State) (r : AluResult) : (countDraw s r).out = s.out := by
  cases r <;> rfl
@[simp] theorem countDraw_prog (s : State) (r : AluResult) : (countDraw s r).prog = s.prog := by
  cases r <;> rfl
@[simp] theorem countDraw_capacity (s : State) (r : AluResult) : (countDraw s r).capacity = s.capacity := by
  cases r <;> rfl
@[simp] theorem countDraw_value (s : State) (v : Nat) : countDraw s (.value v) = s := rfl
@[simp] theorem countDraw_fault (s : State) (f : Fault) : countDraw s (.fault f) = s := rfl
@[simp] theorem countDraw_nan_nanDraws (s : State) (f : FloatFormat) :
    (countDraw s (.nan f)).nanDraws = s.nanDraws + 1 := rfl

end Sys2Proof.Machine
end

