-- ==== Sys2Proof/Laws/Ops.lean ====
section
/-! SUPPORT. What each shared operation can do, said once. A proof about an instruction cites these and
unfolds none of them. -/

namespace Sys2Proof.Machine

theorem admitted_iff {s : State} {o k : Nat} : admitted s o k = true ↔ o + k ≤ s.capacity := by
  simp [admitted]

theorem memRead_of_le {s : State} {o k : Nat} (h : o + k ≤ s.capacity) :
    memRead s o k = .ok (readBytes s.mem o k) := if_pos (admitted_iff.2 h)

theorem memRead_of_lt {s : State} {o k : Nat} (h : s.capacity < o + k) :
    memRead s o k = .error .memoryFault := if_neg (by simpa [admitted] using h)

/-- All that a read can answer. -/
theorem memRead_cases (s : State) (o k : Nat) :
    (o + k ≤ s.capacity ∧ memRead s o k = .ok (readBytes s.mem o k)) ∨
    (s.capacity < o + k ∧ memRead s o k = .error .memoryFault) := by
  rcases Nat.lt_or_ge s.capacity (o + k) with h | h
  · exact .inr ⟨h, memRead_of_lt h⟩
  · exact .inl ⟨h, memRead_of_le h⟩

theorem memWrite_of_le {s : State} {o : Nat} {bs : List Byte} (h : o + bs.length ≤ s.capacity) :
    memWrite s o bs = .ok { s with mem := writeBytes s.mem o bs } := if_pos (admitted_iff.2 h)

theorem memWrite_of_lt {s : State} {o : Nat} {bs : List Byte} (h : s.capacity < o + bs.length) :
    memWrite s o bs = .error .memoryFault := if_neg (by simpa [admitted] using h)

/-- All that a write can answer. -/
theorem memWrite_cases (s : State) (o : Nat) (bs : List Byte) :
    (o + bs.length ≤ s.capacity ∧
      memWrite s o bs = .ok { s with mem := writeBytes s.mem o bs }) ∨
    (s.capacity < o + bs.length ∧ memWrite s o bs = .error .memoryFault) := by
  rcases Nat.lt_or_ge s.capacity (o + bs.length) with h | h
  · exact .inr ⟨h, memWrite_of_lt h⟩
  · exact .inl ⟨h, memWrite_of_le h⟩

@[simp] theorem conclude_ok (s t : State) : conclude s (.ok t) = .next t := rfl

@[simp] theorem conclude_error (s : State) (f : Fault) :
    conclude s (.error f) = .next (raiseFault s f) := rfl

/-- An instruction ends in its effect or in fault entry, never in a stop. -/
theorem conclude_cases {s t : State} {r : Except Fault State} (h : conclude s r = .next t) :
    r = .ok t ∨ ∃ f, r = .error f ∧ t = raiseFault s f := by
  cases r with
  | ok u => simp only [conclude_ok, Host.Outcome.next.injEq] at h; exact .inl (by rw [h])
  | error f =>
    simp only [conclude_error, Host.Outcome.next.injEq] at h; exact .inr ⟨f, rfl, h.symm⟩

theorem conclude_next (s : State) (r : Except Fault State) : ∃ t, conclude s r = .next t := by
  cases r with
  | ok t => exact ⟨t, rfl⟩
  | error f => exact ⟨raiseFault s f, rfl⟩

end Sys2Proof.Machine
end

