-- ==== Sys2Proof/Laws/Operands.lean ====
section
/-! SUPPORT. One inversion lemma for each shared body of the typed opcodes, the jumps and Print: if it
answers a state, that state is this one, and the checks passed; if it answers a fault, this is why. -/

namespace Sys2Proof.Machine

/-- The bytes the multiplexer gives once its check has passed. -/
def Operand.bytes (s : State) (p : Pod) : Operand → List Byte
  | .imm v => leBytes p.width v.toNat
  | .abs src => readBytes s.mem src.toNat p.width

@[simp] theorem Operand.length_bytes (s : State) (p : Pod) (x : Operand) :
    (x.bytes s p).length = p.width := by
  cases x <;> simp [Operand.bytes]

/-- All that the operand multiplexer can answer. -/
theorem operandBytes_cases (s : State) (p : Pod) (x : Operand) :
    (OperandInRegion s p x ∧ operandBytes s p x = .ok (x.bytes s p)) ∨
    (¬ OperandInRegion s p x ∧ operandBytes s p x = .error .memoryFault) := by
  cases x with
  | imm v => exact .inl ⟨trivial, rfl⟩
  | abs src =>
    rcases memRead_cases s src.toNat p.width with ⟨h, e⟩ | ⟨h, e⟩
    · exact .inl ⟨h, e⟩
    · exact .inr ⟨Nat.not_le.2 h, e⟩

theorem operandBytes_of_operandInRegion {s : State} {p : Pod} {x : Operand} (h : OperandInRegion s p x) :
    operandBytes s p x = .ok (x.bytes s p) := by
  rcases operandBytes_cases s p x with ⟨_, e⟩ | ⟨hn, _⟩
  · exact e
  · exact absurd h hn

theorem operandBytes_of_not_operandInRegion {s : State} {p : Pod} {x : Operand} (h : ¬ OperandInRegion s p x) :
    operandBytes s p x = .error .memoryFault := by
  rcases operandBytes_cases s p x with ⟨hn, _⟩ | ⟨_, e⟩
  · exact absurd hn h
  · exact e

/-- An ALU result is stored in exactly the Pod's width. -/
theorem length_resultBytes {s : State} {p : Pod} {r : AluResult} {bs : List Byte}
    (h : resultBytes s p r = .ok bs) : bs.length = p.width := by
  cases r <;> simp [resultBytes] at h <;> simp [← h]

/-- Move, said once: the operand's bytes are stored at `dst`, or an access is out of range. -/
theorem moveResult_cases (s : State) (p : Pod) (dst : DataAddr) (x : Operand) :
    (OperandInRegion s p x ∧ dst.toNat + p.width ≤ s.capacity ∧
      moveResult s p dst x = .ok { s with
        mem := writeBytes s.mem dst.toNat (x.bytes s p), ip := s.ip + typedLength p x }) ∨
    ((¬ OperandInRegion s p x ∨ s.capacity < dst.toNat + p.width) ∧
      moveResult s p dst x = .error .memoryFault) := by
  rcases operandBytes_cases s p x with ⟨h, e⟩ | ⟨h, e⟩
  · rcases memWrite_cases s dst.toNat (x.bytes s p) with ⟨hw, ew⟩ | ⟨hw, ew⟩
    · exact .inl ⟨h, by simpa using hw, by simp [moveResult, e, ew, advance]⟩
    · exact .inr ⟨.inr (by simpa using hw), by simp [moveResult, e, ew]⟩
  · exact .inr ⟨.inl h, by simp [moveResult, e]⟩

/-- The multiplexer's bytes hold the operand's value. -/
theorem le_operand_bytes (s : State) (p : Pod) (x : Operand) :
    le (x.bytes s p) = operandValue s p x := by
  cases x
  · exact le_leBytes _ _
  · rfl

/-- Arithmetic, said once: the result's bytes are stored at `dst`; or the ALU faults; or an access is
out of range, which is checked before the ALU runs. -/
theorem arithResult_cases (alu : Pod → Nat → Nat → AluResult) (s : State) (p : Pod) (dst : DataAddr)
    (x : Operand) :
    (∃ bs, OperandInRegion s p x ∧ dst.toNat + p.width ≤ s.capacity ∧
      resultBytes s p (alu p (valueAt s p dst) (operandValue s p x)) = .ok bs ∧
      arithResult alu s p dst x = .ok (advance (countDraw
        { s with mem := writeBytes s.mem dst.toNat bs }
        (alu p (valueAt s p dst) (operandValue s p x))) (typedLength p x))) ∨
    (∃ f, OperandInRegion s p x ∧ dst.toNat + p.width ≤ s.capacity ∧
      resultBytes s p (alu p (valueAt s p dst) (operandValue s p x)) = .error f ∧
      arithResult alu s p dst x = .error f) ∨
    ((¬ OperandInRegion s p x ∨ s.capacity < dst.toNat + p.width) ∧
      arithResult alu s p dst x = .error .memoryFault) := by
  rcases operandBytes_cases s p x with ⟨h, e⟩ | ⟨h, e⟩
  · rcases memRead_cases s dst.toNat p.width with ⟨hr, er⟩ | ⟨hr, er⟩
    · cases hb : resultBytes s p (alu p (valueAt s p dst) (operandValue s p x)) with
      | error f => exact .inr (.inl ⟨f, h, hr, rfl, by simp [arithResult, e, er, le_operand_bytes, ← valueAt.eq_1, hb]⟩)
      | ok bs =>
        have hw := memWrite_of_le (s := s) (o := dst.toNat) (bs := bs)
          (by rw [length_resultBytes hb]; exact hr)
        exact .inl ⟨bs, h, hr, rfl, by simp [arithResult, e, er, le_operand_bytes, ← valueAt.eq_1, hb, hw]⟩
    · exact .inr (.inr ⟨.inr hr, by simp [arithResult, e, er]⟩)
  · exact .inr (.inr ⟨.inl h, by simp [arithResult, e]⟩)

/-- Compare, said once: the ordering goes to `cmp`, or an access is out of range. -/
theorem compareResult_cases (s : State) (p : Pod) (dst : DataAddr) (x : Operand) :
    (OperandInRegion s p x ∧ dst.toNat + p.width ≤ s.capacity ∧
      compareResult s p dst x = .ok { s with
        cmp := partialOrder p (valueAt s p dst) (operandValue s p x),
        ip := s.ip + typedLength p x }) ∨
    ((¬ OperandInRegion s p x ∨ s.capacity < dst.toNat + p.width) ∧
      compareResult s p dst x = .error .memoryFault) := by
  rcases operandBytes_cases s p x with ⟨h, e⟩ | ⟨h, e⟩
  · rcases memRead_cases s dst.toNat p.width with ⟨hr, er⟩ | ⟨hr, er⟩
    · exact .inl ⟨h, hr, by simp [compareResult, e, er, advance, le_operand_bytes, ← valueAt.eq_1]⟩
    · exact .inr ⟨.inr hr, by simp [compareResult, e, er]⟩
  · exact .inr ⟨.inl h, by simp [compareResult, e]⟩

/-- A jump, said once. -/
theorem jumpResult_cases (s : State) (taken : Bool) (t : Target) :
    (taken = true ∧ t.toNat ≤ s.prog.length ∧ jumpResult s taken t = .ok { s with ip := t.toNat }) ∨
    (taken = true ∧ s.prog.length < t.toNat ∧
      jumpResult s taken t = .error .unexpectedEndOfProgram) ∨
    (taken = false ∧ jumpResult s taken t = .ok { s with ip := s.ip + 9 }) := by
  cases taken with
  | false => exact .inr (.inr ⟨rfl, rfl⟩)
  | true =>
    rcases Nat.lt_or_ge s.prog.length t.toNat with h | h
    · exact .inr (.inl ⟨rfl, h, by simp [jumpResult, Nat.not_le.2 h]⟩)
    · exact .inl ⟨rfl, h, by simp [jumpResult, h]⟩

/-- Print, said once: the event goes out, or the access is out of range. -/
theorem printResult_cases (s : State) (p : Pod) (addr : DataAddr) :
    (addr.toNat + p.width ≤ s.capacity ∧
      printResult s p addr = .ok { s with
        out := s.out ++ [⟨p, readBytes s.mem addr.toNat p.width⟩], ip := s.ip + 6 }) ∨
    (s.capacity < addr.toNat + p.width ∧ printResult s p addr = .error .memoryFault) := by
  rcases memRead_cases s addr.toNat p.width with ⟨h, e⟩ | ⟨h, e⟩
  · exact .inl ⟨h, by simp [printResult, e, advance, emit]⟩
  · exact .inr ⟨h, by simp [printResult, e]⟩

end Sys2Proof.Machine
end

