-- ==== Sys2Proof/Laws/PerInstr.lean ====
section
/-! SUPPORT. The family EncodedLength: the encoder writes as many bytes as the length table of
30_encoding.md R63 gives, between 6 and 14 (R50). -/

namespace Sys2Proof.Laws.EncodedLength

/-- The encoding has the length of the table. -/
def Statement (i : Instr) : Prop :=
  (encode i).length = i.length ∧ 6 ≤ i.length ∧ i.length ≤ 14

theorem Pod_width_le (p : Pod) : p.width ≤ 8 := by cases p <;> decide

theorem immForms (op : Byte) (p : Pod) (dst : DataAddr) (imm : Immediate) :
    (encodeImm op p dst imm).length = 6 + p.width ∧ 6 ≤ 6 + p.width ∧ 6 + p.width ≤ 14 := by
  have := Pod_width_le p
  simp [encodeImm]
  omega

theorem absForms (op : Byte) (p : Pod) (dst src : DataAddr) :
    (encodeAbs op p dst src).length = 10 ∧ 6 ≤ 10 ∧ 10 ≤ 14 := by simp [encodeAbs]

theorem jumpForms (op : Byte) (t : Target) :
    (encodeJump op t).length = 9 ∧ 6 ≤ 9 ∧ 9 ≤ 14 := by simp [encodeJump]

theorem moveImm (p : Pod) (dst : DataAddr) (imm : Immediate) : Statement (.moveImm p dst imm) :=
  immForms _ _ _ _
theorem moveAbs (p : Pod) (dst src : DataAddr) : Statement (.moveAbs p dst src) :=
  absForms _ _ _ _
theorem addImm (p : Pod) (dst : DataAddr) (imm : Immediate) : Statement (.addImm p dst imm) :=
  immForms _ _ _ _
theorem addAbs (p : Pod) (dst src : DataAddr) : Statement (.addAbs p dst src) :=
  absForms _ _ _ _
theorem subtractImm (p : Pod) (dst : DataAddr) (imm : Immediate) :
    Statement (.subtractImm p dst imm) := immForms _ _ _ _
theorem subtractAbs (p : Pod) (dst src : DataAddr) : Statement (.subtractAbs p dst src) :=
  absForms _ _ _ _
theorem multiplyImm (p : Pod) (dst : DataAddr) (imm : Immediate) :
    Statement (.multiplyImm p dst imm) := immForms _ _ _ _
theorem multiplyAbs (p : Pod) (dst src : DataAddr) : Statement (.multiplyAbs p dst src) :=
  absForms _ _ _ _
theorem divideImm (p : Pod) (dst : DataAddr) (imm : Immediate) :
    Statement (.divideImm p dst imm) := immForms _ _ _ _
theorem divideAbs (p : Pod) (dst src : DataAddr) : Statement (.divideAbs p dst src) :=
  absForms _ _ _ _
theorem compareImm (p : Pod) (dst : DataAddr) (imm : Immediate) :
    Statement (.compareImm p dst imm) := immForms _ _ _ _
theorem compareAbs (p : Pod) (dst src : DataAddr) : Statement (.compareAbs p dst src) :=
  absForms _ _ _ _
theorem jump (t : Target) : Statement (.jump t) := jumpForms _ _
theorem jumpIfEqual (t : Target) : Statement (.jumpIfEqual t) := jumpForms _ _
theorem jumpIfLessThan (t : Target) : Statement (.jumpIfLessThan t) := jumpForms _ _
theorem print (p : Pod) (addr : DataAddr) : Statement (.print p addr) := by
  refine ⟨?_, Nat.le_refl 6, by show 6 ≤ 14; decide⟩
  simp [encode, encodePrint, Instr.length]

end Sys2Proof.Laws.EncodedLength
end

