-- ==== Sys2Proof/Laws/Step.lean ====
section
/-! SUPPORT. The step and the dispatch, said once: every meaning is `conclude` of an effect, and a step
is one of four things. -/

namespace Sys2Proof.Machine

/-- The effect of an instruction, before it is concluded. -/
def effect (i : Instr) (s : State) : Except Fault State :=
  match i with
  | .moveImm p dst imm => moveResult s p dst (.imm imm)
  | .moveAbs p dst src => moveResult s p dst (.abs src)
  | .addImm p dst imm => arithResult aluAdd s p dst (.imm imm)
  | .addAbs p dst src => arithResult aluAdd s p dst (.abs src)
  | .subtractImm p dst imm => arithResult aluSub s p dst (.imm imm)
  | .subtractAbs p dst src => arithResult aluSub s p dst (.abs src)
  | .multiplyImm p dst imm => arithResult aluMul s p dst (.imm imm)
  | .multiplyAbs p dst src => arithResult aluMul s p dst (.abs src)
  | .divideImm p dst imm => arithResult aluDiv s p dst (.imm imm)
  | .divideAbs p dst src => arithResult aluDiv s p dst (.abs src)
  | .compareImm p dst imm => compareResult s p dst (.imm imm)
  | .compareAbs p dst src => compareResult s p dst (.abs src)
  | .jump t => jumpResult s true t
  | .jumpIfEqual t => jumpResult s (s.cmp = .equal) t
  | .jumpIfLessThan t => jumpResult s (s.cmp = .less) t
  | .print p addr => printResult s p addr

theorem exec_eq_conclude (i : Instr) (s : State) : exec i s = conclude s (effect i s) := by
  cases i <;> rfl

/-- The effect of a typed instruction, in either shape. -/
theorem effect_move (s : State) (p : Pod) (dst : DataAddr) (x : Operand) :
    effect (typedInstr .move p dst x) s = moveResult s p dst x := by cases x <;> rfl
theorem effect_add (s : State) (p : Pod) (dst : DataAddr) (x : Operand) :
    effect (typedInstr .add p dst x) s = arithResult aluAdd s p dst x := by cases x <;> rfl
theorem effect_subtract (s : State) (p : Pod) (dst : DataAddr) (x : Operand) :
    effect (typedInstr .subtract p dst x) s = arithResult aluSub s p dst x := by cases x <;> rfl
theorem effect_multiply (s : State) (p : Pod) (dst : DataAddr) (x : Operand) :
    effect (typedInstr .multiply p dst x) s = arithResult aluMul s p dst x := by cases x <;> rfl
theorem effect_divide (s : State) (p : Pod) (dst : DataAddr) (x : Operand) :
    effect (typedInstr .divide p dst x) s = arithResult aluDiv s p dst x := by cases x <;> rfl
theorem effect_compare (s : State) (p : Pod) (dst : DataAddr) (x : Operand) :
    effect (typedInstr .compare p dst x) s = compareResult s p dst x := by cases x <;> rfl

/-- The ALU function of an opcode; Move and Compare use none. -/
def aluOf : TypedOp → Pod → Nat → Nat → AluResult
  | .add => aluAdd
  | .subtract => aluSub
  | .multiply => aluMul
  | .divide => aluDiv
  | .move => fun _ _ b => .value b
  | .compare => fun _ a _ => .value a

/-- Every instruction has one of five shapes, so a proof about all sixteen needs five cases. -/
theorem instr_shapes (i : Instr) :
    (∃ p dst x, i = typedInstr .move p dst x) ∨
    (∃ op p dst x, Arithmetic op ∧ i = typedInstr op p dst x ∧
      ∀ s, effect i s = arithResult (aluOf op) s p dst x) ∨
    (∃ p dst x, i = typedInstr .compare p dst x) ∨
    (∃ g, ∃ taken : State → Bool,
      ((i = .jump g ∧ ∀ s, taken s = true) ∨
        (i = .jumpIfEqual g ∧ ∀ s, taken s = decide (s.cmp = .equal)) ∨
        (i = .jumpIfLessThan g ∧ ∀ s, taken s = decide (s.cmp = .less))) ∧
      ∀ s, effect i s = jumpResult s (taken s) g) ∨
    (∃ p addr, i = .print p addr) := by
  cases i with
  | moveImm p d v => exact .inl ⟨p, d, .imm v, rfl⟩
  | moveAbs p d v => exact .inl ⟨p, d, .abs v, rfl⟩
  | addImm p d v => exact .inr (.inl ⟨.add, p, d, .imm v, by simp [Arithmetic], rfl, fun _ => rfl⟩)
  | addAbs p d v => exact .inr (.inl ⟨.add, p, d, .abs v, by simp [Arithmetic], rfl, fun _ => rfl⟩)
  | subtractImm p d v =>
    exact .inr (.inl ⟨.subtract, p, d, .imm v, by simp [Arithmetic], rfl, fun _ => rfl⟩)
  | subtractAbs p d v =>
    exact .inr (.inl ⟨.subtract, p, d, .abs v, by simp [Arithmetic], rfl, fun _ => rfl⟩)
  | multiplyImm p d v =>
    exact .inr (.inl ⟨.multiply, p, d, .imm v, by simp [Arithmetic], rfl, fun _ => rfl⟩)
  | multiplyAbs p d v =>
    exact .inr (.inl ⟨.multiply, p, d, .abs v, by simp [Arithmetic], rfl, fun _ => rfl⟩)
  | divideImm p d v =>
    exact .inr (.inl ⟨.divide, p, d, .imm v, by simp [Arithmetic], rfl, fun _ => rfl⟩)
  | divideAbs p d v =>
    exact .inr (.inl ⟨.divide, p, d, .abs v, by simp [Arithmetic], rfl, fun _ => rfl⟩)
  | compareImm p d v => exact .inr (.inr (.inl ⟨p, d, .imm v, rfl⟩))
  | compareAbs p d v => exact .inr (.inr (.inl ⟨p, d, .abs v, rfl⟩))
  | jump g =>
    exact .inr (.inr (.inr (.inl ⟨g, fun _ => true, .inl ⟨rfl, fun _ => rfl⟩, fun _ => rfl⟩)))
  | jumpIfEqual g =>
    exact .inr (.inr (.inr (.inl ⟨g, fun s => decide (s.cmp = .equal),
      .inr (.inl ⟨rfl, fun _ => rfl⟩), fun _ => rfl⟩)))
  | jumpIfLessThan g =>
    exact .inr (.inr (.inr (.inl ⟨g, fun s => decide (s.cmp = .less),
      .inr (.inr ⟨rfl, fun _ => rfl⟩), fun _ => rfl⟩)))
  | print p a => exact .inr (.inr (.inr (.inr ⟨p, a, rfl⟩)))

/-- All that a step can do. -/
theorem step_cases (s : State) :
    (s.status.state ≠ .running ∧ step s = .next s) ∨
    (s.status.state = .running ∧ s.ip = s.prog.length ∧ step s = .next (halt s)) ∨
    (s.status.state = .running ∧ s.ip ≠ s.prog.length ∧
      ∃ f, fetchInstr s = .error f ∧ step s = .next (raiseFault s f)) ∨
    (s.status.state = .running ∧ s.ip ≠ s.prog.length ∧
      ∃ i, fetchInstr s = .ok i ∧ step s = exec i s) := by
  cases hs : s.status.state with
  | halted => exact .inl ⟨by simp, by simp [step, hs]⟩
  | faulted => exact .inl ⟨by simp, by simp [step, hs]⟩
  | running =>
    by_cases he : s.ip = s.prog.length
    · exact .inr (.inl ⟨rfl, he, by simp [step, hs, atEnd, he]⟩)
    · cases hf : fetchInstr s with
      | error f => exact .inr (.inr (.inl ⟨rfl, he, f, rfl, by simp [step, hs, atEnd, he, hf]⟩))
      | ok i => exact .inr (.inr (.inr ⟨rfl, he, i, rfl, by simp [step, hs, atEnd, he, hf]⟩))

/-- All that an instruction can do: its effect or fault entry. -/
theorem exec_cases {i : Instr} {s t : State} (h : exec i s = .next t) :
    effect i s = .ok t ∨ ∃ f, effect i s = .error f ∧ t = raiseFault s f := by
  rw [exec_eq_conclude] at h
  exact conclude_cases h

/-- Fetching reads the program and `ip` only. -/
theorem fetchInstr_congr {s t : State} (hp : t.prog = s.prog) (hi : t.ip = s.ip) :
    fetchInstr t = fetchInstr s := by
  simp [fetchInstr, hp, hi]

end Sys2Proof.Machine
end

