-- ==== Sys2Proof/Tests/Slice0.lean ====
section
/-! SUPPORT. The model's own tests. Expected values come from the spec: the examples of each rule and
the vectors of 95_test_vectors.md (named V-...). The witnesses at the end show that the hypotheses of
each statement can be met. -/

namespace Sys2Proof.Tests

open Sys2Proof Sys2Proof.Machine

/-! ## Well-formedness refuses an immediate wider than its Pod -/

theorem test_wf_moveImm : (Instr.moveImm .u8 0 0x100).wellFormed = false := by decide
theorem test_wf_addImm : (Instr.addImm .u16 0 0x10000).wellFormed = false := by decide
theorem test_wf_subtractImm : (Instr.subtractImm .u32 0 0x100000000).wellFormed = false := by decide
theorem test_wf_multiplyImm : (Instr.multiplyImm .f32 0 0x100000000).wellFormed = false := by decide
theorem test_wf_divideImm : (Instr.divideImm .u8 0 0x100).wellFormed = false := by decide
theorem test_wf_compareImm : (Instr.compareImm .u16 0 0x10000).wellFormed = false := by decide
theorem test_wf_accepts : (Instr.moveImm .u8 0 0xFF).wellFormed = true ∧
    (Instr.moveImm .f64 0 0xFFFFFFFFFFFFFFFF).wellFormed = true := by decide

/-! ## Decode: each form's bytes as the spec writes them -/

/-- R110's example. -/
theorem test_decode_moveImm : decode [0x00, 0x20, 0x02, 0x00, 0x00, 0x00, 0x34, 0x12] =
    .ok (.moveImm .u16 2 0x1234, []) := by decide
/-- R111's example. -/
theorem test_decode_moveAbs : decode [0x00, 0x50, 0x00, 0x00, 0x00, 0x00, 0x04, 0x00, 0x00, 0x00] =
    .ok (.moveAbs .u32 0 4, []) := by decide
/-- R112's example. -/
theorem test_decode_addImm : decode [0x01, 0x00, 0x00, 0x00, 0x00, 0x00, 0x0A] =
    .ok (.addImm .u8 0 10, []) := by decide
/-- R113's example. -/
theorem test_decode_addAbs : decode [0x01, 0x90, 0x00, 0x00, 0x00, 0x00, 0x04, 0x00, 0x00, 0x00] =
    .ok (.addAbs .f32 0 4, []) := by decide
/-- R114's example. -/
theorem test_decode_subtractImm :
    decode [0x02, 0x40, 0x00, 0x00, 0x00, 0x00, 0x01, 0x00, 0x00, 0x00] =
      .ok (.subtractImm .u32 0 1, []) := by decide
/-- R115's example. -/
theorem test_decode_subtractAbs :
    decode [0x02, 0xB0, 0x08, 0x00, 0x00, 0x00, 0x00, 0x00, 0x00, 0x00] =
      .ok (.subtractAbs .f64 8 0, []) := by decide
/-- R116's example. -/
theorem test_decode_multiplyImm : decode [0x03, 0x20, 0x00, 0x00, 0x00, 0x00, 0x00, 0x01] =
    .ok (.multiplyImm .u16 0 256, []) := by decide
/-- R117's example. -/
theorem test_decode_multiplyAbs :
    decode [0x03, 0xB0, 0x00, 0x00, 0x00, 0x00, 0x00, 0x00, 0x00, 0x00] =
      .ok (.multiplyAbs .f64 0 0, []) := by decide
/-- R118's example. -/
theorem test_decode_divideImm :
    decode [0x04, 0x40, 0x00, 0x00, 0x00, 0x00, 0x02, 0x00, 0x00, 0x00] =
      .ok (.divideImm .u32 0 2, []) := by decide
/-- R119's example. -/
theorem test_decode_divideAbs :
    decode [0x04, 0x70, 0x00, 0x00, 0x00, 0x00, 0x08, 0x00, 0x00, 0x00] =
      .ok (.divideAbs .u64 0 8, []) := by decide
/-- R131's example. -/
theorem test_decode_compareImm :
    decode [0x05, 0x40, 0x00, 0x00, 0x00, 0x00, 0xFF, 0x00, 0x00, 0x00] =
      .ok (.compareImm .u32 0 255, []) := by decide
/-- R132's example. -/
theorem test_decode_compareAbs :
    decode [0x05, 0xB0, 0x08, 0x00, 0x00, 0x00, 0x08, 0x00, 0x00, 0x00] =
      .ok (.compareAbs .f64 8 8, []) := by decide
/-- R133's example. -/
theorem test_decode_jump : decode [0x06, 0x07, 0x00, 0x00, 0x00, 0x00, 0x00, 0x00, 0x00] =
    .ok (.jump 7, []) := by decide
/-- R134's example. -/
theorem test_decode_jumpIfEqual : decode [0x07, 0x2D, 0x00, 0x00, 0x00, 0x00, 0x00, 0x00, 0x00] =
    .ok (.jumpIfEqual 45, []) := by decide
/-- R135's example. -/
theorem test_decode_jumpIfLessThan : decode [0x08, 0x14, 0x00, 0x00, 0x00, 0x00, 0x00, 0x00, 0x00] =
    .ok (.jumpIfLessThan 20, []) := by decide
/-- R150's example and its corner case: Metadata bit 4 is ignored. -/
theorem test_decode_print : decode [0x09, 0x40, 0x00, 0x00, 0x00, 0x00] = .ok (.print .u32 0, []) ∧
    decode [0x09, 0x50, 0x00, 0x00, 0x00, 0x00] = .ok (.print .u32 0, []) := by decide
/-- Every byte of a wide field is read in its place (R59, R66). -/
theorem test_decode_wide_fields :
    decode [0x00, 0x60, 0x04, 0x03, 0x02, 0x01, 0x88, 0x77, 0x66, 0x55, 0x44, 0x33, 0x22, 0x11] =
      .ok (.moveImm .u64 0x01020304 0x1122334455667788, []) ∧
    decode [0x06, 0x08, 0x07, 0x06, 0x05, 0x04, 0x03, 0x02, 0x01] =
      .ok (.jump 0x0102030405060708, []) := by decide
/-- V-DEC-2, V-DEC-4, V-DEC-5, V-DEC-11: each refusal by its name. -/
theorem test_decode_refusals : decode [0xFF, 0x00, 0x00] = .error .invalidOpcode ∧
    decode [0x01, 0xE0, 0x00, 0x00, 0x00, 0x00, 0x00] = .error .invalidPod ∧
    decode [0x01, 0x41] = .error .reservedBits ∧
    decode [0x09, 0x41, 0x00, 0x00, 0x00, 0x00] = .error .reservedBits := by decide
/-- V-DEC-3, V-DEC-7, V-DEC-8, V-DEC-14: a bad Metadata byte is seen before a missing field. -/
theorem test_decode_truncated : decode [0x01, 0xC0] = .error .invalidPod ∧
    decode [0x01] = .error .truncated ∧ decode [0x01, 0x40, 0x00, 0x00] = .error .truncated ∧
    decode [0x06, 0x09, 0x00, 0x00] = .error .truncated := by decide
/-- The opcode table's words: byte 0 is bits 15:8 and byte 1 bits 7:0. -/
theorem test_decode_table_words : decodeTableWord 16 0x0110 = some (.addAbs .u8 0 0) ∧
    decodeTableWord 16 0x05A0 = some (.compareImm .f64 0 0) ∧
    decodeTableWord 16 0x0600 = some (.jump 0) ∧ decodeTableWord 16 0x0A00 = none := by decide

/-! ## One step of each instruction -/

/-- An instance with `prog` and `mem` as given, at its first step. -/
def at0 (prog : List Byte) (capacity : Nat) (mem : Memory) : State :=
  { State.resetWith prog capacity with mem := mem }

/-- What `get` reads in the state after one step. -/
def afterStep {α : Type} (s : State) (get : State → α) : Option α :=
  match step s with
  | .next t => some (get t)
  | .fault _ => none
  | .refused _ => none

/-- The `k` bytes at `o`, and `ip`. -/
def bytesAndIp (o k : Nat) (t : State) : List Byte × Nat := (readBytes t.mem o k, t.ip)

/-- The status and `ip`. -/
def statusAndIp (t : State) : Status × Nat := (t.status, t.ip)

/-- V-MOV-2. -/
theorem test_moveImm : afterStep (at0 [0x00, 0x20, 0x02, 0x00, 0x00, 0x00, 0x34, 0x12] 16 [])
    (bytesAndIp 0 6) = some ([0x00, 0x00, 0x34, 0x12, 0x00, 0x00], 8) := by decide
/-- V-MEM-5: the bound does not wrap. -/
theorem test_moveImm_fault :
    afterStep (at0 [0x00, 0x40, 0xFF, 0xFF, 0xFF, 0xFF, 0x00, 0x00, 0x00, 0x00] 16 []) statusAndIp =
      some (⟨.faulted, some .memoryFault⟩, 0) := by decide
/-- V-MOV-5: an overlapping copy reads first. -/
theorem test_moveAbs :
    afterStep (at0 [0x00, 0x50, 0x02, 0x00, 0x00, 0x00, 0x00, 0x00, 0x00, 0x00] 8
      [(0, 1), (1, 2), (2, 3), (3, 4), (4, 5), (5, 6), (6, 7), (7, 8)]) (bytesAndIp 0 8) =
      some ([1, 2, 1, 2, 3, 4, 7, 8], 10) := by decide
/-- V-ADD-1. -/
theorem test_addImm : afterStep (at0 [0x01, 0x00, 0x00, 0x00, 0x00, 0x00, 0x0A] 1 [(0, 250)])
    (bytesAndIp 0 1) = some ([4], 7) := by decide
/-- V-ADD-10: the source is also the destination. -/
theorem test_addAbs :
    afterStep (at0 [0x01, 0x50, 0x00, 0x00, 0x00, 0x00, 0x00, 0x00, 0x00, 0x00] 4
      [(0, 0x01), (3, 0x80)]) (bytesAndIp 0 4) = some ([2, 0, 0, 0], 10) := by decide
/-- R114's example. -/
theorem test_subtractImm :
    afterStep (at0 [0x02, 0x40, 0x00, 0x00, 0x00, 0x00, 0x01, 0x00, 0x00, 0x00] 4 [])
      (bytesAndIp 0 4) = some ([0xFF, 0xFF, 0xFF, 0xFF], 10) := by decide
/-- V-SUB-2's operands in the Absolute shape: `mem[dst]` minus `mem[src]`. -/
theorem test_subtractAbs :
    afterStep (at0 [0x02, 0x30, 0x00, 0x00, 0x00, 0x00, 0x02, 0x00, 0x00, 0x00] 4 [(0, 5), (2, 7)])
      (bytesAndIp 0 4) = some ([0xFE, 0xFF, 7, 0], 10) := by decide
/-- R116's example. -/
theorem test_multiplyImm : afterStep (at0 [0x03, 0x20, 0x00, 0x00, 0x00, 0x00, 0x00, 0x01] 2 [(1, 1)])
    (bytesAndIp 0 2) = some ([0, 0], 8) := by decide
/-- R117's example: 1.5 squared is 2.25. -/
theorem test_multiplyAbs :
    afterStep (at0 [0x03, 0xB0, 0x00, 0x00, 0x00, 0x00, 0x00, 0x00, 0x00, 0x00] 8
      [(6, 0xF8), (7, 0x3F)]) (bytesAndIp 0 8) = some ([0, 0, 0, 0, 0, 0, 0x02, 0x40], 10) := by
  decide +kernel
/-- R118's example. -/
theorem test_divideImm :
    afterStep (at0 [0x04, 0x40, 0x00, 0x00, 0x00, 0x00, 0x02, 0x00, 0x00, 0x00] 4 [(0, 7)])
      (bytesAndIp 0 4) = some ([3, 0, 0, 0], 10) := by decide
/-- V-DIV-15: the bound is checked before the divisor. -/
theorem test_divideImm_order :
    afterStep (at0 [0x04, 0x40, 0x04, 0x00, 0x00, 0x00, 0x00, 0x00, 0x00, 0x00] 4 []) statusAndIp =
      some (⟨.faulted, some .memoryFault⟩, 0) := by decide
/-- R119's example, V-DIV-7. -/
theorem test_divideAbs :
    afterStep (at0 [0x04, 0x70, 0x00, 0x00, 0x00, 0x00, 0x08, 0x00, 0x00, 0x00] 16 [(0, 5)])
      statusAndIp = some (⟨.faulted, some .arithmeticFault⟩, 0) := by decide
/-- R131's example. -/
theorem test_compareImm :
    afterStep (at0 [0x05, 0x40, 0x00, 0x00, 0x00, 0x00, 0xFF, 0x00, 0x00, 0x00] 4 [(0, 233)])
      State.cmp = some .less := by decide
/-- V-CMP-10: a NaN compared with itself. -/
theorem test_compareAbs :
    afterStep { at0 [0x05, 0xB0, 0x00, 0x00, 0x00, 0x00, 0x00, 0x00, 0x00, 0x00] 8
      [(6, 0xF8), (7, 0x7F)] with cmp := .equal } State.cmp = some .unset := by decide +kernel
/-- V-DEC-13: a jump to exactly the end. -/
theorem test_jump : afterStep (at0 [0x06, 0x09, 0x00, 0x00, 0x00, 0x00, 0x00, 0x00, 0x00] 0 [])
    statusAndIp = some (⟨.running, none⟩, 9) := by decide
/-- Program L3-8: a jump beyond the end. -/
theorem test_jump_beyond :
    afterStep (at0 [0x06, 0x64, 0x00, 0x00, 0x00, 0x00, 0x00, 0x00, 0x00] 0 []) statusAndIp =
      some (⟨.faulted, some .unexpectedEndOfProgram⟩, 0) := by decide
/-- V-JMP-4, V-JMP-7 with a target in this program: Equal jumps, Unset does not. -/
theorem test_jumpIfEqual :
    afterStep { at0 [0x07, 0x03, 0x00, 0x00, 0x00, 0x00, 0x00, 0x00, 0x00] 0 [] with
      cmp := .equal } State.ip = some 3 ∧
    afterStep (at0 [0x07, 0x03, 0x00, 0x00, 0x00, 0x00, 0x00, 0x00, 0x00] 0 []) State.ip =
      some 9 := by decide
/-- V-JMP-8, V-JMP-12: Less jumps; one not taken does not check its target. -/
theorem test_jumpIfLessThan :
    afterStep { at0 [0x08, 0x03, 0x00, 0x00, 0x00, 0x00, 0x00, 0x00, 0x00] 0 [] with
      cmp := .less } State.ip = some 3 ∧
    afterStep { at0 [0x08, 0xE8, 0x03, 0x00, 0x00, 0x00, 0x00, 0x00, 0x00] 0 [] with
      cmp := .greater } statusAndIp = some (⟨.running, none⟩, 9) := by decide
/-- V-PRT-1 and its text. -/
theorem test_print : afterStep (at0 [0x09, 0x40, 0x00, 0x00, 0x00, 0x00] 4 [(0, 0x2A)]) State.out =
    some [⟨.u32, [0x2A, 0, 0, 0]⟩] ∧ printText ⟨.u32, [0x2A, 0, 0, 0]⟩ = "42" := by decide
/-- V-PRT-4: a Print that faults emits nothing. -/
theorem test_print_fault : afterStep (at0 [0x09, 0x60, 0x00, 0x00, 0x00, 0x00] 4 []) State.out =
    some [] := by decide
/-- V-DEC-15: the empty program halts. -/
theorem test_halt : afterStep State.reset statusAndIp = some (⟨.halted, none⟩, 0) := by decide
/-- The host's placed word is what the next step runs. -/
theorem test_withFetchWord : fetchInstr (State.reset.withFetchWord 16 0x0950) = .ok (.print .u32 0) ∧
    afterStep (State.reset.withFetchWord 16 0x0950) State.ip = some 6 := by decide

/-- R230: `Jump 0` comes back to the state of construction at every step, and the begun run cannot be
reset; before `run()` it can. -/
theorem test_hostReset_loop :
    let x := construct [0x06, 0x00, 0x00, 0x00, 0x00, 0x00, 0x00, 0x00, 0x00] 0 0
    (stepRun (callRun x)).core = x.core ∧ hostReset (stepRun (callRun x)) [] 0 = none ∧
      hostReset x [] 0 = some (construct [] 0 0) := by decide

/-! ## Float arithmetic: the vectors of 95_test_vectors.md -/

/-- V-ADD-5, V-ADD-6, V-ADD-8. -/
theorem test_float_add32 : floatAdd binary32 0x3DCCCCCD 0x3E4CCCCD = some 0x3E99999A ∧
    floatAdd binary32 0x4B800000 0x3F800000 = some 0x4B800000 ∧
    floatAdd binary32 0x7F7FFFFF 0x7F7FFFFF = some 0x7F800000 := by decide +kernel
/-- V-ADD-7, V-ADD-9. -/
theorem test_float_add64 :
    floatAdd binary64 0x3FB999999999999A 0x3FC999999999999A = some 0x3FD3333333333334 ∧
    floatAdd binary64 0x7FF0000000000000 0xFFF0000000000000 = none := by decide +kernel
/-- V-SUB-5, V-SUB-6, V-SUB-7. -/
theorem test_float_sub : floatSub binary64 0x3FF0000000000000 0x3FF0000000000000 = some 0 ∧
    floatSub binary32 0x80000000 0x00000000 = some 0x80000000 ∧
    floatSub binary64 0x7FF0000000000000 0x7FF0000000000000 = none := by decide +kernel
/-- V-MUL-6 to V-MUL-10. -/
theorem test_float_mul : floatMul binary32 0x7F7FFFFF 0x41200000 = some 0x7F800000 ∧
    floatMul binary64 0x0000000000000001 0x3FE0000000000000 = some 0 ∧
    floatMul binary64 0x0000000000000001 0x3FF8000000000000 = some 2 ∧
    floatMul binary64 0xC000000000000000 0x4008000000000000 = some 0xC018000000000000 ∧
    floatMul binary64 0 0x7FF0000000000000 = none := by decide +kernel
/-- V-DIV-9 to V-DIV-14. -/
theorem test_float_div :
    floatDiv binary64 0x3FF8000000000000 0 = some 0x7FF0000000000000 ∧
    floatDiv binary64 0xBFF8000000000000 0 = some 0xFFF0000000000000 ∧
    floatDiv binary64 0x3FF8000000000000 0x8000000000000000 = some 0xFFF0000000000000 ∧
    floatDiv binary64 0 0 = none ∧ floatDiv binary32 0x3F800000 0x40400000 = some 0x3EAAAAAB ∧
    floatDiv binary64 0x3FF0000000000000 0x4008000000000000 = some 0x3FD5555555555555 := by
  decide +kernel
/-- V-CMP-6, V-CMP-7, V-CMP-8, V-CMP-11. -/
theorem test_float_compare : partialOrder .f32 0x80000000 0 = .equal ∧
    partialOrder .f64 0xFFF0000000000000 0x7FF0000000000000 = .less ∧
    partialOrder .f64 0x7FF8000000000000 0x3FF0000000000000 = .unset ∧
    partialOrder .f64 0x3FF8000000000000 0x4004000000000000 = .less := by decide +kernel

/-! ## Witnesses: the hypotheses of the statements can be met

The instance `small` is Running with 16 bytes of memory: 4 at 0, the F32 values 1.0, +inf and -0 at 4, 8
and 12. -/

/-- A small instance. -/
def small : State := at0 [0x06, 0x00, 0x00, 0x00, 0x00, 0x00, 0x00, 0x00, 0x00] 16
  [(0, 4), (6, 0x80), (7, 0x3F), (10, 0x80), (11, 0x7F), (15, 0x80)]

theorem witness_InvHoldsAfterReset : ([] : List Byte).length < 2 ^ 64 := by decide
/-- Each clause: an instance before `run()`, a begun one that runs, and a begun one that has halted. -/
theorem witness_HostResets :
    hostReset ⟨small, false⟩ [] 4 = some (construct [] 4 0) ∧
      hostReset ⟨small, true⟩ [] 4 = none ∧
      hostReset ⟨{ small with status := ⟨.halted, none⟩ }, true⟩ [] 4 = some (construct [] 4 0) ∧
      step small = .next small := ⟨rfl, rfl, rfl, rfl⟩
theorem witness_StepRunsDecodedInstruction :
    small.status.state = .running ∧ decode (small.prog.drop small.ip) = .ok (.jump 0, []) := by decide
theorem witness_HaltedOnlyByTheHaltCheck :
    ({ small with ip := 9 } : State).status.state = .running ∧
      ({ small with ip := 9 } : State).ip = small.prog.length ∧
      ({ small with ip := 9 } : State).Inv ∧
      step { small with ip := 9 } = .next { small with ip := 9, status := ⟨.halted, none⟩ } := by
  refine ⟨rfl, rfl, by decide, rfl⟩
theorem witness_StoppedInstanceNeverChanges :
    ({ small with status := ⟨.faulted, some .memoryFault⟩ } : State).status.state ≠ .running ∧
      Reaches 0 small small ∧ runResult ⟨.faulted, some .memoryFault⟩ = some (.err .memoryFault) :=
  ⟨by decide, rfl, rfl⟩
theorem witness_FaultsArePrecise :
    step { small with prog := [0x0A] } =
      .next { small with prog := [0x0A], status := ⟨.faulted, some .invalidOpcode⟩ } := rfl
theorem witness_EveryStepKeepsInv : small.Inv ∧ step small = .next small := ⟨by decide, rfl⟩
/-- For AtMostOneEffectPerStep, ProgramAndCapacityNeverChange and StoresAreNotFetched: a step that moves
data. -/
theorem witness_step_answers_next :
    step { small with prog := encode (.moveImm .u8 0 5) } =
      .next { small with
        prog := encode (.moveImm .u8 0 5), ip := 7
        mem := [(0, 5), (6, 0x80), (7, 0x3F), (10, 0x80), (11, 0x7F), (15, 0x80)] } := rfl
theorem witness_OnlyCompareWritesCmp :
    Instr.compareImm .u8 0 5 = typedInstr .compare .u8 0 (.imm 5) ∧
      exec (.compareImm .u8 0 5) small = .next { small with cmp := .less, ip := 7 } ∧
      exec (.compareImm .u8 16 5) small = .next (FaultedFrom small .memoryFault) :=
  ⟨rfl, rfl, rfl⟩
theorem witness_OnlyConditionalJumpsReadCmp :
    (∀ g, Instr.jump 0 ≠ .jumpIfEqual g) ∧ (∀ g, Instr.jump 0 ≠ .jumpIfLessThan g) ∧
      exec (.jump 0) small = .next small ∧
      exec (.jump 0) { small with cmp := .less } = .next { small with cmp := .less } :=
  ⟨by simp, by simp, rfl, rfl⟩
theorem witness_OnlyPrintAppendsOutput :
    exec (.print .u8 0) small = .next { small with out := [⟨.u8, [4]⟩], ip := 6 } := rfl
theorem witness_StoresAreNotFetched :
    memWrite small 0 [5] = .ok { small with
      mem := [(0, 5), (6, 0x80), (7, 0x3F), (10, 0x80), (11, 0x7F), (15, 0x80)] } := rfl
theorem witness_RunAnswersWhatItReaches :
    run 1 { small with ip := 9 } =
      some (.ok, { small with ip := 9, status := ⟨.halted, none⟩ }) := rfl
theorem witness_SafeRunIsNoErr : small.Inv := by decide
theorem witness_OutputIsNeverRetracted : Reaches 1 small small := ⟨small, rfl, rfl⟩
theorem witness_DecodeOfEncode : (Instr.moveImm .u8 0xFFFFFFFF 0xFF).wellFormed = true := by decide
theorem witness_DecodedBytes :
    decode [0x09, 0x50, 0x00, 0x00, 0x00, 0x00] = .ok (.print .u32 0, []) ∧
      decode [0x09, 0x40, 0x00, 0x00, 0x00, 0x00] = .ok (.print .u32 0, []) := by decide
theorem witness_LaterBytes :
    decode [0x0A] = .error .invalidOpcode ∧ DecodeError.invalidOpcode ≠ .truncated := by decide
theorem witness_IllegalOpcode :
    ({ small with prog := [0x0A] } : State).prog.drop 0 = (0x0A : Byte) :: [] ∧
      small.status.state = .running ∧ 0x0A ≤ (0x0A : Byte).toNat ∧ 0x0A ≤ (0xFF : Byte).toNat := by
  decide
theorem witness_BadMetadata :
    ({ small with prog := [0x05, 0xC0] } : State).prog.drop 0 = (0x05 : Byte) :: 0xC0 :: [] ∧
      small.status.state = .running ∧ (0x05 : Byte).toNat ≤ 5 ∧ 6 ≤ (0xC0 : Byte).toNat / 32 ∧ (0x09 : Byte).toNat = 9 ∧
      (0x01 : Byte).toNat % 16 ≠ 0 := by decide
theorem witness_PrintMetadata :
    ({ small with prog := [0x09, 0x08] } : State).prog.drop 0 = 0x09 :: (0x08 : Byte) :: [] ∧
      small.status.state = .running ∧ (0x08 : Byte).toNat % 16 ≠ 0 := by decide
theorem witness_Truncated :
    encode (.jump 0) = [0x06, 0x00] ++ [0x00, 0x00, 0x00, 0x00, 0x00, 0x00, 0x00] ∧
      (Instr.jump 0).wellFormed = true ∧ small.status.state = .running ∧
      ({ small with prog := [0x06, 0x00] } : State).prog.drop 0 = [0x06, 0x00] := by decide
/-- The program `09 50 00`: a Print with bit 4 set that ends inside its address. -/
theorem witness_Truncated_print :
    0x09 :: metadataByte .u32 true :: leBytes 4 (0 : DataAddr).toNat =
      [0x09, 0x50, 0x00] ++ [0x00, 0x00, 0x00] ∧ small.status.state = .running ∧
      ({ small with prog := [0x09, 0x50, 0x00] } : State).prog.drop 0 = [0x09, 0x50, 0x00] := by
  decide
theorem witness_CompletedInstructionMovesIp :
    exec (.jump 9) small = .next { small with ip := 9 } ∧
      exec (.jumpIfEqual 9) small = .next { small with ip := 9 } := ⟨rfl, rfl⟩
theorem witness_AccessBoundCheck :
    small.capacity < 9 + 8 ∧ ¬ small.capacity < 8 + 8 ∧
      ({ small with capacity := 0 } : State).capacity = 0 := by decide
theorem witness_Read : InRegion small .u64 8 ∧ InRegion small .u8 15 := by decide
theorem witness_WriteThenRead :
    Memory.wf small.mem = true ∧ 12 + (leBytes 4 0xFFFFFFFF).length ≤ small.capacity ∧
      0xFFFFFFFF < 256 ^ Pod.u32.width ∧ 12 + Pod.u32.width ≤ small.capacity := by decide
theorem witness_NarrowRead :
    Memory.wf small.mem = true ∧ 1 < 2 ∧
      memWrite small 0 (leBytes 2 0x1234) = .ok { small with
        mem := [(0, 0x34), (1, 0x12), (6, 0x80), (7, 0x3F), (10, 0x80), (11, 0x7F), (15, 0x80)] } :=
  ⟨by decide, by decide, rfl⟩
theorem witness_OutOfRange :
    ¬ OperandInRegion small .u32 (.abs 13) ∧ ¬ InRegion small .u32 13 ∧ InRegion small .u32 12 ∧
      exec (.print .u32 13) small = .next (FaultedFrom small .memoryFault) ∧
      small.status.fault = none := by
  refine ⟨?_, by decide, by decide, rfl, rfl⟩
  show ¬ InRegion small .u32 13
  decide
/-- Both shapes of a typed instruction on `small`, the last word of memory included. -/
theorem witness_OperandsReady :
    OperandsReady small .u32 12 (.imm 0) ∧ OperandsReady small .u8 15 (.abs 0) :=
  ⟨⟨by decide, trivial, by decide⟩, ⟨by decide, by show InRegion small .u8 0; decide, by decide⟩⟩
theorem witness_integer_operands :
    Pod.u8.valueType = .unsigned 8 ∧ OperandsReady small .u8 0 (.imm 2) ∧
      operandValue small .u8 (.imm 2) ≠ 0 ∧ operandValue small .u8 (.imm 0) = 0 :=
  ⟨rfl, ⟨by decide, trivial, by decide⟩, by decide, by decide⟩
theorem witness_ArithmeticFault :
    small.status.fault = none ∧
      exec (.divideImm .u8 0 0) small = .next (FaultedFrom small .arithmeticFault) := ⟨rfl, rfl⟩
/-- Finite float operands, both nonzero and both zero; `sum` and `diff` nonzero and zero. -/
theorem witness_float_finite :
    Pod.f32.valueType = .float binary32 ∧ OperandsReady small .f32 4 (.imm 0x3F800000) ∧
      FinitePattern binary32 (valueAt small .f32 4) ∧
      FinitePattern binary32 (operandValue small .f32 (.imm 0x3F800000)) ∧
      signedUnits binary32 (valueAt small .f32 4) +
        signedUnits binary32 (operandValue small .f32 (.imm 0x3F800000)) ≠ 0 ∧
      signedUnits binary32 (valueAt small .f32 4) -
        signedUnits binary32 (operandValue small .f32 (.imm 0x3F800000)) = 0 ∧
      isZero binary32 (operandValue small .f32 (.imm 0x3F800000)) = false :=
  ⟨rfl, ⟨by decide, trivial, by decide⟩, by decide +kernel, by decide +kernel, by decide +kernel,
    by decide +kernel, by decide +kernel⟩
theorem witness_float_zero_sum :
    OperandsReady small .f32 12 (.imm 0x80000000) ∧ Pod.f32.valueType = .float binary32 ∧
      signedUnits binary32 (valueAt small .f32 12) +
        signedUnits binary32 (operandValue small .f32 (.imm 0x80000000)) = 0 ∧
      signedUnits binary32 (valueAt small .f32 4) -
        signedUnits binary32 (operandValue small .f32 (.imm 0x80000000)) ≠ 0 :=
  ⟨⟨by decide, trivial, by decide⟩, rfl, by decide +kernel, by decide +kernel⟩
/-- The left infinity of Add, Subtract, Multiply and Divide, with a finite nonzero right operand. -/
theorem witness_float_inf_left :
    OperandsReady small .f32 8 (.imm 0x3F800000) ∧ isInf binary32 (valueAt small .f32 8) = true ∧
      isNaN binary32 0x3F800000 = false ∧ isInf binary32 0x3F800000 = false ∧
      isZero binary32 0x3F800000 = false ∧ FinitePattern binary32 0x3F800000 :=
  ⟨⟨by decide, trivial, by decide⟩, by decide +kernel, by decide +kernel, by decide +kernel,
    by decide +kernel, by decide +kernel⟩
/-- The right infinity, with a finite nonzero left operand; and a zero divisor. -/
theorem witness_float_inf_right :
    OperandsReady small .f32 4 (.imm 0xFF800000) ∧ FinitePattern binary32 (valueAt small .f32 4) ∧
      isInf binary32 0xFF800000 = true ∧ isZero binary32 (valueAt small .f32 4) = false ∧
      isNaN binary32 (valueAt small .f32 4) = false ∧ isZero binary32 0x80000000 = true :=
  ⟨⟨by decide, trivial, by decide⟩, by decide +kernel, by decide +kernel, by decide +kernel,
    by decide +kernel, by decide +kernel⟩
/-- Both infinite: of one sign for Add's clause, of two signs for Subtract's. -/
theorem witness_float_inf_both :
    OperandsReady small .f32 8 (.abs 8) ∧ isInf binary32 (valueAt small .f32 8) = true ∧
      signBit binary32 (valueAt small .f32 8) = signBit binary32 0x7F800000 ∧
      signBit binary32 (valueAt small .f32 8) ≠ signBit binary32 0xFF800000 :=
  ⟨⟨by decide, by show InRegion small .f32 8; decide, by decide⟩, by decide +kernel,
    by decide +kernel, by decide +kernel⟩
/-- A NaN case (a zero divided by a zero) and a case that is none (1.0 divided by 1.0). -/
theorem witness_float_nan_cases :
    Arithmetic .divide ∧ Pod.f32.valueType = .float binary32 ∧
      OperandsReady small .f32 12 (.imm 0) ∧
      NanCase .divide binary32 (valueAt small .f32 12) (operandValue small .f32 (.imm 0)) ∧
      OperandsReady small .f32 4 (.imm 0x3F800000) ∧
      ¬ NanCase .divide binary32 (valueAt small .f32 4)
        (operandValue small .f32 (.imm 0x3F800000)) :=
  ⟨⟨by decide, by decide⟩, rfl, ⟨by decide, trivial, by decide⟩,
    .inr (.inr (.inl ⟨by decide +kernel, by decide +kernel⟩)), ⟨by decide, trivial, by decide⟩, by
    rintro (h | h | ⟨h, _⟩ | ⟨h, _⟩)
    · exact absurd h (by decide +kernel)
    · exact absurd h (by decide +kernel)
    · exact absurd h (by decide +kernel)
    · exact absurd h (by decide +kernel)⟩
theorem witness_RoundUnits : 1 ≤ binary64.fracBits ∧ 1 ≤ binary32.fracBits ∧ 0 < 1 := by decide
theorem witness_UnitsStrictlyIncrease : 0x7FFFFF < 0x800000 ∧
    units binary32 0x7FFFFF + 1 = units binary32 0x800000 := by decide +kernel
theorem witness_NanPatterns : Pod.f64.valueType = .float binary64 ∧
    0x7FF0000000000001 < 2 ^ (magnitudeBits binary64 + 1) ∧
    isNaN binary64 0x7FF0000000000001 = true := by decide +kernel
theorem witness_Compare :
    InRegion small .u32 12 ∧ OperandInRegion small .u32 (.abs 12) ∧
      Pod.u32.valueType = .unsigned 32 ∧ Pod.f32.valueType = .float binary32 ∧
      partialOrder .f32 (valueAt small .f32 4) (operandValue small .f32 (.imm 0)) ≠ .unset :=
  ⟨by decide, by show InRegion small .u32 12; decide, rfl, rfl, by decide +kernel⟩
theorem witness_TakenJump : (9 : Target).toNat ≤ small.prog.length ∧
    ({ small with cmp := .equal } : State).cmp = .equal ∧
    ({ small with cmp := .less } : State).cmp = .less := by decide
theorem witness_UntakenJump : small.cmp ≠ .equal ∧ small.cmp ≠ .less := by decide
theorem witness_JumpBeyondTheEnd : small.prog.length < (10 : Target).toNat := by decide
theorem witness_Print : InRegion small .u8 15 := by decide

end Sys2Proof.Tests
end

namespace Sys2Proof.Machine

/-! # What a completed instruction does to `cmp`, `out` and the status

The five shared bodies of the sixteen instructions, and from them one inversion lemma for `effect`:
Compare and Print have their one effect, every other instruction leaves these three fields alone. -/

/-- `t` has the Comparison Register, the Print events and the status of `s`. -/
structure KeepsCmpOutStatus (s t : State) : Prop where
  cmp : t.cmp = s.cmp
  out : t.out = s.out
  status : t.status = s.status

theorem moveResult_keeps {s t : State} {p : Pod} {dst : DataAddr} {x : Operand}
    (h : moveResult s p dst x = .ok t) : KeepsCmpOutStatus s t := by
  rcases moveResult_cases s p dst x with ⟨_, _, e⟩ | ⟨_, e⟩ <;> cases e.symm.trans h
  exact ⟨rfl, rfl, rfl⟩

theorem arithResult_keeps {alu : Pod → Nat → Nat → AluResult} {s t : State} {p : Pod}
    {dst : DataAddr} {x : Operand} (h : arithResult alu s p dst x = .ok t) :
    KeepsCmpOutStatus s t := by
  rcases arithResult_cases alu s p dst x with ⟨_, _, _, _, e⟩ | ⟨_, _, _, _, e⟩ | ⟨_, e⟩ <;>
    cases e.symm.trans h
  exact ⟨by simp, by simp, by simp⟩

theorem jumpResult_keeps {s t : State} {taken : Bool} {g : Target}
    (h : jumpResult s taken g = .ok t) : KeepsCmpOutStatus s t := by
  rcases jumpResult_cases s taken g with ⟨_, _, e⟩ | ⟨_, _, e⟩ | ⟨_, e⟩ <;> cases e.symm.trans h
  · exact ⟨rfl, rfl, rfl⟩
  · exact ⟨rfl, rfl, rfl⟩

theorem eq_of_compareResult_ok {s t : State} {p : Pod} {dst : DataAddr} {x : Operand}
    (h : compareResult s p dst x = .ok t) :
    t = { s with
      cmp := partialOrder p (valueAt s p dst) (operandValue s p x)
      ip := s.ip + typedLength p x } := by
  rcases compareResult_cases s p dst x with ⟨_, _, e⟩ | ⟨_, e⟩ <;> cases e.symm.trans h
  rfl

theorem eq_of_printResult_ok {s t : State} {p : Pod} {addr : DataAddr}
    (h : printResult s p addr = .ok t) :
    t = { s with
      out := s.out ++ [⟨p, readBytes s.mem addr.toNat p.width⟩]
      ip := s.ip + 6 } := by
  rcases printResult_cases s p addr with ⟨_, e⟩ | ⟨_, e⟩ <;> cases e.symm.trans h
  rfl

/-- All that a completed instruction can do to `cmp`, `out` and the status. -/
theorem effect_ok_cases {i : Instr} {s t : State} (h : effect i s = .ok t) :
    KeepsCmpOutStatus s t ∨
    (∃ p dst x, i = typedInstr .compare p dst x ∧
      t = { s with
        cmp := partialOrder p (valueAt s p dst) (operandValue s p x)
        ip := s.ip + typedLength p x }) ∨
    (∃ p addr, i = .print p addr ∧
      t = { s with
        out := s.out ++ [⟨p, readBytes s.mem addr.toNat p.width⟩]
        ip := s.ip + 6 }) := by
  rcases instr_shapes i with ⟨p, dst, x, rfl⟩ | ⟨op, p, dst, x, _, _, he⟩ | ⟨p, dst, x, rfl⟩ |
    ⟨g, taken, _, he⟩ | ⟨p, addr, rfl⟩
  · exact .inl (moveResult_keeps (effect_move s p dst x ▸ h))
  · exact .inl (arithResult_keeps (he s ▸ h))
  · exact .inr (.inl ⟨p, dst, x, rfl, eq_of_compareResult_ok (effect_compare s p dst x ▸ h)⟩)
  · exact .inl (jumpResult_keeps (he s ▸ h))
  · exact .inr (.inr ⟨p, addr, rfl, eq_of_printResult_ok h⟩)

/-- R87: an instruction that completes leaves the status as it was. -/
theorem status_of_effect_ok {i : Instr} {s t : State} (h : effect i s = .ok t) :
    t.status = s.status := by
  rcases effect_ok_cases h with keeps | ⟨_, _, _, _, rfl⟩ | ⟨_, _, _, rfl⟩
  · exact keeps.status
  · rfl
  · rfl

theorem cmp_of_effect_ok_of_ne_compare {i : Instr} {s t : State} (h : effect i s = .ok t)
    (hi : ∀ p dst x, i ≠ typedInstr .compare p dst x) : t.cmp = s.cmp := by
  rcases effect_ok_cases h with keeps | ⟨p, dst, x, e, _⟩ | ⟨_, _, _, rfl⟩
  · exact keeps.cmp
  · exact absurd e (hi p dst x)
  · rfl

theorem cmp_of_effect_compare_ok {s t : State} {p : Pod} {dst : DataAddr} {x : Operand}
    (h : effect (typedInstr .compare p dst x) s = .ok t) :
    t.cmp = partialOrder p (valueAt s p dst) (operandValue s p x) := by
  rw [effect_compare] at h
  rw [eq_of_compareResult_ok h]

/-- Settles O13: the instruction completed with its effect, where only Compare touches `cmp`, or it
entered a fault, which changes the status alone. -/
theorem onlyCompareWritesCmp : Obligations.OnlyCompareWritesCmp := by
  intro i s t hrun h
  rcases exec_cases h with hok | ⟨f, _, rfl⟩
  · refine ⟨cmp_of_effect_ok_of_ne_compare hok, ?_, ?_⟩
    · rintro p dst x rfl -
      exact cmp_of_effect_compare_ok hok
    · intro hfaulted
      rw [status_of_effect_ok hok, hrun] at hfaulted
      cases hfaulted
  · refine ⟨fun _ => raiseFault_cmp s f, ?_, fun _ => raiseFault_cmp s f⟩
    intro p dst x _ hrunning
    rw [raiseFault_status] at hrunning
    cases hrunning

/-- Settles O16: Print is the one effect that touches `out`, and fault entry keeps it. -/
theorem onlyPrintAppendsOutput : Obligations.OnlyPrintAppendsOutput := by
  intro i s t h
  rcases exec_cases h with hok | ⟨f, _, rfl⟩
  · rcases effect_ok_cases hok with keeps | ⟨_, _, _, _, rfl⟩ | ⟨p, addr, hi, rfl⟩
    · exact .inl keeps.out
    · exact .inl rfl
    · exact .inr ⟨p, addr, hi, rfl⟩
  · exact .inl (raiseFault_out s f)

end Sys2Proof.Machine

namespace Sys2Proof.Machine

/-! # The memory port

The bound check (20_memory.md R32), the bytes and the value a read gives (R33), what a write sets and
leaves (R34), and that no store is seen by instruction fetch (40_execution_cycle.md R46). -/

/-! ## The bound check -/

theorem memRead_eq_ok_iff {s : State} {o k : Nat} :
    (∃ bs, memRead s o k = .ok bs) ↔ o + k ≤ s.capacity := by
  rcases memRead_cases s o k with ⟨hle, e⟩ | ⟨hlt, e⟩
  · simp [e, hle]
  · simp [e, hlt]

theorem memWrite_eq_ok_iff {s : State} {o : Nat} {bytes : List Byte} :
    (∃ t, memWrite s o bytes = .ok t) ↔ o + bytes.length ≤ s.capacity := by
  rcases memWrite_cases s o bytes with ⟨hle, e⟩ | ⟨hlt, e⟩
  · simp [e, hle]
  · simp [e, hlt]

/-- Settles O30: the two cases of a read and of a write; with capacity 0 any access of a byte is beyond
the bound. -/
theorem accessBoundCheck : Obligations.AccessBoundCheck := by
  intro s o k bytes
  refine ⟨memRead_eq_ok_iff, memWrite_eq_ok_iff, memRead_of_lt, memWrite_of_lt, ?_, ?_⟩
  · intro hcap hk
    exact memRead_of_lt (by omega)
  · intro hcap hbytes
    have hpos := List.length_pos_iff.2 hbytes
    exact memWrite_of_lt (by omega)

/-! ## What a read gives -/

theorem getElem?_readBytes (m : Memory) (o : Nat) {k j : Nat} (hj : j < k) :
    (readBytes m o k)[j]? = some (readByte m (o + j)) := by
  induction k generalizing o j with
  | zero => omega
  | succ k ih =>
    cases j with
    | zero => simp [readBytes]
    | succ j =>
      have htail := ih (o + 1) (Nat.lt_of_succ_lt_succ hj)
      simpa [readBytes, Nat.add_right_comm, Nat.add_assoc] using htail

/-- The little-endian number of a range: the byte at `o + j` has the weight `256 ^ j`. -/
theorem le_readBytes (m : Memory) (o k : Nat) :
    le (readBytes m o k) = ∑ j ∈ Finset.range k, (readByte m (o + j)).toNat * 256 ^ j := by
  induction k generalizing o with
  | zero => rfl
  | succ k ih =>
    calc le (readBytes m o (k + 1))
        = (readByte m o).toNat + 256 * le (readBytes m (o + 1) k) := rfl
      _ = (readByte m o).toNat +
            ∑ j ∈ Finset.range k, (readByte m (o + (j + 1))).toNat * 256 ^ (j + 1) := by
          rw [ih, Finset.mul_sum]
          congr 1
          refine Finset.sum_congr rfl fun j _ => ?_
          rw [show o + 1 + j = o + (j + 1) by omega]
          ring
      _ = _ := by rw [Finset.sum_range_succ', Nat.add_comm]; simp

theorem foldr_add_range (f : Nat → Nat) (k : Nat) :
    (List.range k).foldr (fun j acc => acc + f j) 0 = ∑ j ∈ Finset.range k, f j :=
  calc (List.range k).foldr (fun j acc => acc + f j) 0
      = ((List.range k).map f).sum := by simp only [List.sum, List.foldr_map, Nat.add_comm]
    _ = ∑ j ∈ Finset.range k, f j := rfl

/-- Settles O31: an admitted read answers `readBytes`, whose bytes and whose little-endian number are
those of the range. -/
theorem readGivesTheBytesInOrder : Obligations.ReadGivesTheBytesInOrder := by
  intro s p o hregion
  refine ⟨readBytes s.mem o.toNat p.width, memRead_of_le hregion, length_readBytes _ _ _,
    fun j hj => getElem?_readBytes _ _ hj, rfl, ?_⟩
  rw [foldr_add_range, le_readBytes]

/-! ## What a write sets -/

/-- An admitted write answers `s` with its bytes written, which read back and leave every other byte. -/
theorem memWrite_reads_back {s : State} {o : Nat} {bytes : List Byte} (hwf : Memory.wf s.mem = true)
    (hle : o + bytes.length ≤ s.capacity) :
    ∃ t, memWrite s o bytes = .ok t ∧ readBytes t.mem o bytes.length = bytes ∧
      SameMemoryOutside s t o bytes.length ∧ t = { s with mem := t.mem } :=
  ⟨{ s with mem := writeBytes s.mem o bytes }, memWrite_of_le hle,
    readBytes_writeBytes_same hwf o bytes,
    fun _ ha => readByte_writeBytes_outside s.mem o bytes ha, rfl⟩

/-- Settles O32: a typed write is the write of its value's bytes, whose number is that value. -/
theorem writeThenReadGivesTheBytes : Obligations.WriteThenReadGivesTheBytes := by
  intro s o hwf
  refine ⟨fun bytes => memWrite_reads_back hwf, fun p v hv hle => ?_⟩
  obtain ⟨t, hwrite, hread, -, -⟩ :=
    memWrite_reads_back (bytes := leBytes p.width v) hwf (by rwa [length_leBytes])
  refine ⟨t, hwrite, ?_⟩
  rw [length_leBytes] at hread
  rw [hread, le_leBytes_of_lt hv]

/-! ## Stores and instruction fetch -/

theorem prog_and_ip_of_memWrite_ok {s t : State} {o : Nat} {bytes : List Byte}
    (h : memWrite s o bytes = .ok t) : t.prog = s.prog ∧ t.ip = s.ip := by
  rcases memWrite_cases s o bytes with ⟨_, e⟩ | ⟨_, e⟩ <;> cases e.symm.trans h
  exact ⟨rfl, rfl⟩

theorem moveResult_sameSetup {s t : State} {p : Pod} {dst : DataAddr} {x : Operand}
    (h : moveResult s p dst x = .ok t) : SameSetup s t := by
  rcases moveResult_cases s p dst x with ⟨_, _, e⟩ | ⟨_, e⟩ <;> cases e.symm.trans h
  exact ⟨rfl, rfl, rfl⟩

theorem arithResult_sameSetup {alu : Pod → Nat → Nat → AluResult} {s t : State} {p : Pod}
    {dst : DataAddr} {x : Operand} (h : arithResult alu s p dst x = .ok t) : SameSetup s t := by
  rcases arithResult_cases alu s p dst x with ⟨_, _, _, _, e⟩ | ⟨_, _, _, _, e⟩ | ⟨_, e⟩ <;>
    cases e.symm.trans h
  exact ⟨by simp, by simp, by simp⟩

theorem jumpResult_sameSetup {s t : State} {taken : Bool} {g : Target}
    (h : jumpResult s taken g = .ok t) : SameSetup s t := by
  rcases jumpResult_cases s taken g with ⟨_, _, e⟩ | ⟨_, _, e⟩ | ⟨_, e⟩ <;> cases e.symm.trans h
  · exact ⟨rfl, rfl, rfl⟩
  · exact ⟨rfl, rfl, rfl⟩

/-- R10, R87: an instruction that completes keeps the program, the capacity and the status. -/
theorem sameSetup_of_effect_ok {i : Instr} {s t : State} (h : effect i s = .ok t) :
    SameSetup s t := by
  rcases instr_shapes i with ⟨p, dst, x, rfl⟩ | ⟨op, p, dst, x, _, _, he⟩ | ⟨p, dst, x, rfl⟩ |
    ⟨g, taken, _, he⟩ | ⟨p, addr, rfl⟩
  · exact moveResult_sameSetup (effect_move s p dst x ▸ h)
  · exact arithResult_sameSetup (he s ▸ h)
  · cases eq_of_compareResult_ok (effect_compare s p dst x ▸ h)
    exact ⟨rfl, rfl, rfl⟩
  · exact jumpResult_sameSetup (he s ▸ h)
  · cases eq_of_printResult_ok h
    exact ⟨rfl, rfl, rfl⟩

theorem prog_of_exec {i : Instr} {s t : State} (h : exec i s = .next t) : t.prog = s.prog := by
  rcases exec_cases h with hok | ⟨f, _, rfl⟩
  · exact (sameSetup_of_effect_ok hok).1
  · exact raiseFault_prog s f

/-- R46: the program is immutable: no step changes it. -/
theorem prog_of_step {s t : State} (h : step s = .next t) : t.prog = s.prog := by
  rcases step_cases s with ⟨_, e⟩ | ⟨_, _, e⟩ | ⟨_, _, f, _, e⟩ | ⟨_, _, i, _, e⟩
  · cases e.symm.trans h
    rfl
  · cases e.symm.trans h
    exact halt_prog s
  · cases e.symm.trans h
    exact raiseFault_prog s f
  · exact prog_of_exec (e.symm.trans h)

/-- Settles O17: a fetch sees the program and `ip` alone; a store keeps both, and a step keeps the
program. -/
theorem storesAreNotFetched : Obligations.StoresAreNotFetched := by
  refine ⟨fun s t o bytes hwrite => ?_, fun s t j hstep => ?_⟩
  · obtain ⟨hprog, hip⟩ := prog_and_ip_of_memWrite_ok hwrite
    exact fetchInstr_congr hprog hip
  · have hprog : t.prog = s.prog := prog_of_step hstep
    exact fetchInstr_congr hprog rfl

end Sys2Proof.Machine

namespace Sys2Proof.Machine

/-! # Integer arithmetic

An ALU value reaches memory in one way, whatever the opcode and the operand's shape
(`storesResult_of_aluOf_eq_value`); what is left for an opcode is which value its ALU function gives
(41_alu.md R101). -/

/-! ## The ALU functions on an integer Pod -/

theorem aluAdd_of_unsigned {p : Pod} {n : Nat} (h : p.valueType = .unsigned n) (a b : Nat) :
    aluAdd p a b = .value ((a + b) % 2 ^ n) := by
  simp only [aluAdd, h, addN]

theorem aluSub_of_unsigned {p : Pod} {n : Nat} (h : p.valueType = .unsigned n) (a b : Nat) :
    aluSub p a b = .value (((a : Int) - (b : Int)) % (2 : Int) ^ n).toNat := by
  simp only [aluSub, h, subN, Nat.cast_pow, Nat.cast_ofNat]

theorem aluMul_of_unsigned {p : Pod} {n : Nat} (h : p.valueType = .unsigned n) (a b : Nat) :
    aluMul p a b = .value ((a * b) % 2 ^ n) := by
  simp only [aluMul, h, mulN]

/-! ## Storing an ALU value -/

theorem effect_arithmetic {op : TypedOp} (hop : Arithmetic op) (s : State) (p : Pod) (dst : DataAddr)
    (x : Operand) : effect (typedInstr op p dst x) s = arithResult (aluOf op) s p dst x := by
  cases op with
  | move => exact absurd rfl hop.1
  | add => exact effect_add s p dst x
  | subtract => exact effect_subtract s p dst x
  | multiply => exact effect_multiply s p dst x
  | divide => exact effect_divide s p dst x
  | compare => exact absurd rfl hop.2

/-- With its accesses in the region, an arithmetic body whose ALU answers a value completes: the checks
passed, and a value is never a fault. -/
theorem arithResult_of_value {alu : Pod → Nat → Nat → AluResult} {s : State} {p : Pod}
    {dst : DataAddr} {x : Operand} {v : Nat} (hdst : InRegion s p dst) (hx : OperandInRegion s p x)
    (hv : alu p (valueAt s p dst) (operandValue s p x) = .value v) :
    arithResult alu s p dst x = .ok (advance
      { s with mem := writeBytes s.mem dst.toNat (leBytes p.width v) } (typedLength p x)) := by
  rcases arithResult_cases alu s p dst x with
    ⟨bs, _, _, hbytes, e⟩ | ⟨f, _, _, hfault, _⟩ | ⟨hout | hout, _⟩
  · rw [hv] at hbytes e
    cases hbytes
    exact e
  · rw [hv] at hfault
    cases hfault
  · exact absurd hx hout
  · exact absurd hdst (Nat.not_le.2 hout)

/-- In a canonical memory, writing a pattern's bytes and moving `ip` is all that `StoredAt` asks for. -/
theorem storedAt_writeBytes {s : State} (hwf : Memory.wf s.mem = true) (p : Pod) (dst : DataAddr)
    (v len : Nat) :
    StoredAt s (advance { s with mem := writeBytes s.mem dst.toNat (leBytes p.width v) } len)
      p dst v (s.ip + len) := by
  have hread := readBytes_writeBytes_same hwf dst.toNat (leBytes p.width v)
  rw [length_leBytes] at hread
  have hout : SameMemoryOutside s
      (advance { s with mem := writeBytes s.mem dst.toNat (leBytes p.width v) } len)
      dst.toNat p.width := fun _ ha =>
    readByte_writeBytes_outside s.mem dst.toNat _ (by rwa [length_leBytes])
  exact ⟨hread, hout, rfl, rfl, rfl, rfl, rfl, rfl⟩

/-- An arithmetic instruction whose ALU function answers a value stores that value. -/
theorem storesResult_of_aluOf_eq_value {s : State} {op : TypedOp} {p : Pod} {dst : DataAddr}
    {x : Operand} {v : Nat} (hop : Arithmetic op) (hready : OperandsReady s p dst x)
    (hv : aluOf op p (valueAt s p dst) (operandValue s p x) = .value v) :
    StoresResult s op p dst x v := by
  obtain ⟨hdst, hx, hwf⟩ := hready
  refine ⟨_, ?_, storedAt_writeBytes hwf p dst v (typedLength p x), rfl⟩
  rw [exec_eq_conclude, effect_arithmetic hop, arithResult_of_value hdst hx hv, conclude_ok]

/-- Settles O36: the three ALU functions answer the wrapped value on an integer Pod, never a fault. -/
theorem integerAddSubtractMultiplyWrap : Obligations.IntegerAddSubtractMultiplyWrap := by
  intro s p n dst x hp hready
  refine ⟨?_, ?_, ?_⟩
  · exact storesResult_of_aluOf_eq_value ⟨nofun, nofun⟩ hready (aluAdd_of_unsigned hp _ _)
  · exact storesResult_of_aluOf_eq_value ⟨nofun, nofun⟩ hready (aluSub_of_unsigned hp _ _)
  · exact storesResult_of_aluOf_eq_value ⟨nofun, nofun⟩ hready (aluMul_of_unsigned hp _ _)

end Sys2Proof.Machine

namespace Sys2Proof

open Machine (Operand typedInstr)

/-! # The decoder and the encoder

Both are taken apart by the four formats of 30_encoding.md R59 to R62, a typed instruction being one
format with either operand: what each format's bytes decode to, and that bytes which decode, or fail to
for another reason than truncation, are of such a format. -/

/-! ## Opcode bytes and the families of instructions -/

/-- The byte of an opcode (30_encoding.md R51). -/
def opcodeByte : Opcode → Byte
  | .typed .move => 0x00
  | .typed .add => 0x01
  | .typed .subtract => 0x02
  | .typed .multiply => 0x03
  | .typed .divide => 0x04
  | .typed .compare => 0x05
  | .jump .always => 0x06
  | .jump .ifEqual => 0x07
  | .jump .ifLessThan => 0x08
  | .print => 0x09

@[simp] theorem opcodeOf_opcodeByte (o : Opcode) : opcodeOf (opcodeByte o) = some o := by
  rcases o with (_ | _ | _ | _ | _ | _) | (_ | _ | _) | _ <;> rfl

theorem eq_opcodeByte_of_opcodeOf {b : Byte} {o : Opcode} (h : opcodeOf b = some o) :
    b = opcodeByte o := by
  unfold opcodeOf at h
  split at h <;> cases h <;> (apply BitVec.eq_of_toNat_eq; assumption)

theorem opcodeByte_le (o : Opcode) : (opcodeByte o).toNat ≤ 9 := by
  rcases o with (_ | _ | _ | _ | _ | _) | (_ | _ | _) | _ <;> decide

/-- R52: no opcode has a byte from 0x0A on. -/
theorem opcodeOf_eq_none {b : Byte} (h : 0x0A ≤ b.toNat) : opcodeOf b = none := by
  cases ho : opcodeOf b with
  | none => rfl
  | some o =>
    obtain rfl := eq_opcodeByte_of_opcodeOf ho
    have := opcodeByte_le o
    omega

/-- Every instruction is a typed instruction, a jump or a Print, by its opcode's family. -/
theorem instr_families (i : Instr) :
    (∃ op p dst x, i = typedInstr op p dst x) ∨ (∃ op g, i = jumpForm op g) ∨
      ∃ p addr, i = .print p addr := by
  rcases Machine.instr_shapes i with ⟨p, dst, x, rfl⟩ | ⟨op, p, dst, x, _, rfl, _⟩ |
    ⟨p, dst, x, rfl⟩ | ⟨g, _, ⟨rfl, _⟩ | ⟨rfl, _⟩ | ⟨rfl, _⟩, _⟩ | ⟨p, addr, rfl⟩
  · exact .inl ⟨.move, p, dst, x, rfl⟩
  · exact .inl ⟨op, p, dst, x, rfl⟩
  · exact .inl ⟨.compare, p, dst, x, rfl⟩
  · exact .inr (.inl ⟨.always, g, rfl⟩)
  · exact .inr (.inl ⟨.ifEqual, g, rfl⟩)
  · exact .inr (.inl ⟨.ifLessThan, g, rfl⟩)
  · exact .inr (.inr ⟨p, addr, rfl⟩)

/-! ## The format of a typed instruction, either operand -/

/-- Metadata bit 4 of an operand's shape (30_encoding.md R57). -/
def operandMode : Operand → Bool
  | .imm _ => false
  | .abs _ => true

/-- The last field of a typed instruction (30_encoding.md R59, R60). -/
def operandField (p : Pod) : Operand → List Byte
  | .imm v => leBytes p.width v.toNat
  | .abs src => leBytes 4 src.toNat

/-- The operand fits its field (30_encoding.md R64). -/
def operandFits (p : Pod) : Operand → Bool
  | .imm v => immediateFits p v
  | .abs _ => true

theorem encode_typedInstr (op : TypedOp) (p : Pod) (dst : DataAddr) (x : Operand) :
    encode (typedInstr op p dst x) = opcodeByte (.typed op) :: metadataByte p (operandMode x) ::
      (leBytes 4 dst.toNat ++ operandField p x) := by
  cases op <;> cases x <;> rfl

theorem encode_jumpForm (op : JumpOp) (g : Target) :
    encode (jumpForm op g) = opcodeByte (.jump op) :: leBytes 8 g.toNat := by
  cases op <;> rfl

@[simp] theorem wellFormed_typedInstr (op : TypedOp) (p : Pod) (dst : DataAddr) (x : Operand) :
    (typedInstr op p dst x).wellFormed = operandFits p x := by
  cases op <;> cases x <;> rfl

@[simp] theorem wellFormed_jumpForm (op : JumpOp) (g : Target) :
    (jumpForm op g).wellFormed = true := by
  cases op <;> rfl

/-! ## Fields and Metadata -/

@[simp] theorem takeField_addr (v : DataAddr) (rest : List Byte) :
    takeField 4 (leBytes 4 v.toNat ++ rest) = .ok (v.toNat, rest) := takeField_leBytes v.isLt rest

@[simp] theorem takeField_target (g : Target) (rest : List Byte) :
    takeField 8 (leBytes 8 g.toNat ++ rest) = .ok (g.toNat, rest) := takeField_leBytes g.isLt rest

/-- A field that was taken holds a bit vector of any width its bytes fit in, and is its encoding. -/
theorem exists_bitVec_of_takeField {w n v : Nat} {bs rest : List Byte} (hw : 256 ^ n ≤ 2 ^ w)
    (h : takeField n bs = .ok (v, rest)) :
    ∃ a : BitVec w, v = a.toNat ∧ a.toNat < 256 ^ n ∧ bs = leBytes n a.toNat ++ rest := by
  rcases takeField_cases n bs with ⟨field, tail, rfl, rfl, e⟩ | ⟨_, e⟩ <;> cases e.symm.trans h
  have hlt := le_lt field
  have hnat : (BitVec.ofNat w (le field)).toNat = le field := by
    rw [BitVec.toNat_ofNat, Nat.mod_eq_of_lt (hlt.trans_le hw)]
  exact ⟨BitVec.ofNat w (le field), hnat.symm, hnat.symm ▸ hlt, by rw [hnat, leBytes_le]⟩

theorem pow_width_le (p : Pod) : 256 ^ p.width ≤ 2 ^ 64 := by cases p <;> decide

/-- Taking a field fails on too few bytes only. -/
theorem takeField_error {n : Nat} {bs : List Byte} {e : DecodeError}
    (h : takeField n bs = .error e) : e = .truncated := by
  rcases takeField_cases n bs with ⟨_, _, _, _, he⟩ | ⟨_, he⟩ <;> cases he.symm.trans h
  rfl

@[simp] theorem takeMetadata_metadataByte (p : Pod) (a : Bool) (bs : List Byte) :
    takeMetadata (metadataByte p a :: bs) = .ok (metadataByte p a, p, bs) := by
  simp [takeMetadata]

theorem takeMetadata_of_error {m : Byte} {e : DecodeError} (h : metadataPod m = .error e)
    (bs : List Byte) : takeMetadata (m :: bs) = .error e := by
  simp [takeMetadata, h]

/-- All that taking the Metadata byte can answer. -/
theorem takeMetadata_cases (bs : List Byte) :
    (bs = [] ∧ takeMetadata bs = .error .truncated) ∨
    (∃ m rest e, bs = m :: rest ∧ metadataPod m = .error e ∧ takeMetadata bs = .error e) ∨
    (∃ p a rest, bs = metadataByte p a :: rest ∧
      takeMetadata bs = .ok (metadataByte p a, p, rest)) := by
  cases bs with
  | nil => exact .inl ⟨rfl, rfl⟩
  | cons m rest =>
    cases h : metadataPod m with
    | error e => exact .inr (.inl ⟨m, rest, e, rfl, h, takeMetadata_of_error h rest⟩)
    | ok p =>
      have hm := metadataByte_of_metadataPod m p h
      exact .inr (.inr ⟨p, metadataAbsolute m, rest, by rw [← hm], by simp [takeMetadata, h, ← hm]⟩)

/-- The bytes of a well-formed typed instruction decode to it. -/
theorem decodeTyped_operand {op : TypedOp} {p : Pod} {dst : DataAddr} {x : Operand}
    (h : operandFits p x = true) (rest : List Byte) :
    decodeTyped op (metadataByte p (operandMode x) ::
      (leBytes 4 dst.toNat ++ (operandField p x ++ rest))) = .ok (typedInstr op p dst x, rest) := by
  cases x with
  | imm v =>
    have hv : v.toNat < 256 ^ p.width := by simpa [operandFits, immediateFits] using h
    simp [decodeTyped, operandMode, operandField, takeField_leBytes hv, typedInstr]
  | abs src =>
    simp [decodeTyped, operandMode, operandField, typedInstr]

/-- What a typed opcode's fields decode to is well formed, and they are its fields. -/
theorem eq_of_decodeTyped {op : TypedOp} {bs rest : List Byte} {i : Instr}
    (h : decodeTyped op bs = .ok (i, rest)) :
    ∃ p dst x, i = typedInstr op p dst x ∧ operandFits p x = true ∧
      bs = metadataByte p (operandMode x) :: (leBytes 4 dst.toNat ++ (operandField p x ++ rest)) := by
  rcases takeMetadata_cases bs with ⟨_, hm⟩ | ⟨_, _, _, _, _, hm⟩ | ⟨p, a, bs1, rfl, hm⟩ <;>
    simp only [decodeTyped, hm, reduceCtorEq] at h
  cases hd : takeField 4 bs1 with
  | error e => simp [hd] at h
  | ok r =>
    obtain ⟨_, bs2⟩ := r
    obtain ⟨dst, rfl, _, rfl⟩ := exists_bitVec_of_takeField (w := 32) (by decide) hd
    simp only [hd, metadataAbsolute_metadataByte] at h
    cases a with
    | true =>
      cases hs : takeField 4 bs2 with
      | error e => simp [hs] at h
      | ok r =>
        obtain ⟨_, bs3⟩ := r
        obtain ⟨src, rfl, _, rfl⟩ := exists_bitVec_of_takeField (w := 32) (by decide) hs
        simp only [hs, if_true, BitVec.ofNat_toNat, BitVec.setWidth_eq, Except.ok.injEq,
          Prod.mk.injEq] at h
        obtain ⟨rfl, rfl⟩ := h
        exact ⟨p, dst, .abs src, rfl, rfl, rfl⟩
    | false =>
      cases hs : takeField p.width bs2 with
      | error e => simp [hs] at h
      | ok r =>
        obtain ⟨_, bs3⟩ := r
        obtain ⟨imm, rfl, himm, rfl⟩ := exists_bitVec_of_takeField (w := 64) (pow_width_le p) hs
        simp only [hs, Bool.false_eq_true, if_false, BitVec.ofNat_toNat, BitVec.setWidth_eq,
          Except.ok.injEq, Prod.mk.injEq] at h
        obtain ⟨rfl, rfl⟩ := h
        exact ⟨p, dst, .imm imm, rfl, by simpa [operandFits, immediateFits] using himm, rfl⟩

/-! ## Decoding each family's bytes -/

theorem decode_typedInstr {op : TypedOp} {p : Pod} {dst : DataAddr} {x : Operand}
    (h : operandFits p x = true) (rest : List Byte) :
    decode (encode (typedInstr op p dst x) ++ rest) = .ok (typedInstr op p dst x, rest) := by
  simp [encode_typedInstr, decode, decodeTyped_operand h]

theorem decode_jumpForm (op : JumpOp) (g : Target) (rest : List Byte) :
    decode (encode (jumpForm op g) ++ rest) = .ok (jumpForm op g, rest) := by
  simp [encode_jumpForm, decode, decodeJump]

/-- R58: Print decodes alike with either value of Metadata bit 4. -/
theorem decode_printBytes (p : Pod) (addr : DataAddr) (bit4 : Bool) (rest : List Byte) :
    decode (opcodeByte .print :: metadataByte p bit4 :: (leBytes 4 addr.toNat ++ rest)) =
      .ok (.print p addr, rest) := by
  simp [decode, decodePrint]

/-- Settles O21: each family's encoding decodes to it, Print's with bit 4 written 0. -/
theorem decodeOfEncodeIsIdentity : Obligations.DecodeOfEncodeIsIdentity := by
  intro i rest hwf
  rcases instr_families i with ⟨op, p, dst, x, rfl⟩ | ⟨op, g, rfl⟩ | ⟨p, addr, rfl⟩
  · exact decode_typedInstr (by simpa using hwf) rest
  · exact decode_jumpForm op g rest
  · exact decode_printBytes p addr false rest

/-! ## Bytes that decode -/

theorem eq_of_decodeJump {op : JumpOp} {bs rest : List Byte} {i : Instr}
    (h : decodeJump op bs = .ok (i, rest)) :
    ∃ g : Target, i = jumpForm op g ∧ bs = leBytes 8 g.toNat ++ rest := by
  cases ht : takeField 8 bs with
  | error e => simp [decodeJump, ht] at h
  | ok r =>
    obtain ⟨_, bs1⟩ := r
    obtain ⟨g, rfl, _, rfl⟩ := exists_bitVec_of_takeField (w := 64) (by decide) ht
    simp only [decodeJump, ht, BitVec.ofNat_toNat, BitVec.setWidth_eq, Except.ok.injEq,
      Prod.mk.injEq] at h
    obtain ⟨rfl, rfl⟩ := h
    exact ⟨g, rfl, rfl⟩

theorem eq_of_decodePrint {bs rest : List Byte} {i : Instr} (h : decodePrint bs = .ok (i, rest)) :
    ∃ p bit4, ∃ addr : DataAddr, i = .print p addr ∧
      bs = metadataByte p bit4 :: (leBytes 4 addr.toNat ++ rest) := by
  rcases takeMetadata_cases bs with ⟨_, hm⟩ | ⟨_, _, _, _, _, hm⟩ | ⟨p, bit4, bs1, rfl, hm⟩ <;>
    simp only [decodePrint, hm, reduceCtorEq] at h
  cases ha : takeField 4 bs1 with
  | error e => simp [ha] at h
  | ok r =>
    obtain ⟨_, bs2⟩ := r
    obtain ⟨addr, rfl, _, rfl⟩ := exists_bitVec_of_takeField (w := 32) (by decide) ha
    simp only [ha, BitVec.ofNat_toNat, BitVec.setWidth_eq, Except.ok.injEq, Prod.mk.injEq] at h
    obtain ⟨rfl, rfl⟩ := h
    exact ⟨p, bit4, addr, rfl, rfl⟩

/-- Bytes that decode are the encoding of a well-formed instruction or a Print in either spelling. -/
theorem decode_ok_cases {bs rest : List Byte} {i : Instr} (h : decode bs = .ok (i, rest)) :
    (i.wellFormed = true ∧ bs = encode i ++ rest) ∨
    ∃ p bit4, ∃ addr : DataAddr, i = .print p addr ∧
      bs = opcodeByte .print :: metadataByte p bit4 :: (leBytes 4 addr.toNat ++ rest) := by
  cases bs with
  | nil => cases h
  | cons b bs =>
    cases ho : opcodeOf b with
    | none => simp [decode, ho] at h
    | some o =>
      obtain rfl := eq_opcodeByte_of_opcodeOf ho
      cases o with
      | typed op =>
        simp only [decode, ho] at h
        obtain ⟨p, dst, x, rfl, hfits, rfl⟩ := eq_of_decodeTyped h
        exact .inl ⟨by simpa using hfits, by simp [encode_typedInstr]⟩
      | jump op =>
        simp only [decode, ho] at h
        obtain ⟨g, rfl, rfl⟩ := eq_of_decodeJump h
        exact .inl ⟨wellFormed_jumpForm op g, by simp [encode_jumpForm]⟩
      | print =>
        simp only [decode, ho] at h
        obtain ⟨p, bit4, addr, rfl, rfl⟩ := eq_of_decodePrint h
        exact .inr ⟨p, bit4, addr, rfl, rfl⟩

/-- Settles O22: of Print's two spellings the one with bit 4 clear is its encoding. -/
theorem decodedBytesAreTheEncoding : Obligations.DecodedBytesAreTheEncoding := by
  intro bs rest i h
  rcases decode_ok_cases h with ⟨hwf, rfl⟩ | ⟨p, bit4, addr, rfl, rfl⟩
  · exact ⟨hwf, .inl rfl⟩
  · cases bit4 with
    | false => exact ⟨rfl, .inl rfl⟩
    | true => exact ⟨rfl, .inr ⟨p, addr, rfl, rfl⟩⟩

/-! ## Bytes that do not decode -/

/-- The opcodes that are followed by a Metadata byte: the typed ones and Print (30_encoding.md R53). -/
def takesMetadata : Opcode → Bool
  | .typed _ => true
  | .jump _ => false
  | .print => true

theorem decode_of_opcodeOf_none {b : Byte} (h : opcodeOf b = none) (bs : List Byte) :
    decode (b :: bs) = .error .invalidOpcode := by
  simp [decode, h]

theorem decode_of_metadataPod_error {b m : Byte} {o : Opcode} {e : DecodeError}
    (ho : opcodeOf b = some o) (hmeta : takesMetadata o = true) (hm : metadataPod m = .error e)
    (bs : List Byte) : decode (b :: m :: bs) = .error e := by
  have ht := takeMetadata_of_error hm bs
  cases o with
  | typed op => simp [decode, ho, decodeTyped, ht]
  | jump op => cases hmeta
  | print => simp [decode, ho, decodePrint, ht]

/-- Taking the Metadata byte fails on an empty sequence or by that byte. -/
theorem takeMetadata_error {bs : List Byte} {e : DecodeError} (h : takeMetadata bs = .error e)
    (hne : e ≠ .truncated) : ∃ m rest, bs = m :: rest ∧ metadataPod m = .error e := by
  rcases takeMetadata_cases bs with ⟨_, hm⟩ | ⟨m, rest, _, rfl, hpod, hm⟩ | ⟨_, _, _, _, hm⟩ <;>
    cases hm.symm.trans h
  · exact absurd rfl hne
  · exact ⟨m, rest, rfl, hpod⟩

theorem decodeTyped_error {op : TypedOp} {bs : List Byte} {e : DecodeError}
    (h : decodeTyped op bs = .error e) (hne : e ≠ .truncated) :
    ∃ m rest, bs = m :: rest ∧ metadataPod m = .error e := by
  cases hm : takeMetadata bs with
  | error e' =>
    simp only [decodeTyped, hm, Except.error.injEq] at h
    exact takeMetadata_error (h ▸ hm) hne
  | ok r =>
    simp only [decodeTyped, hm] at h
    exfalso
    apply hne
    split at h
    · next he => exact Except.error.inj h ▸ takeField_error he
    · split at h <;> split at h
      · next he => exact Except.error.inj h ▸ takeField_error he
      · cases h
      · next he => exact Except.error.inj h ▸ takeField_error he
      · cases h

theorem decodePrint_error {bs : List Byte} {e : DecodeError}
    (h : decodePrint bs = .error e) (hne : e ≠ .truncated) :
    ∃ m rest, bs = m :: rest ∧ metadataPod m = .error e := by
  cases hm : takeMetadata bs with
  | error e' =>
    simp only [decodePrint, hm, Except.error.injEq] at h
    exact takeMetadata_error (h ▸ hm) hne
  | ok r =>
    simp only [decodePrint, hm] at h
    split at h
    · next he => exact absurd (Except.error.inj h ▸ takeField_error he) hne
    · cases h

theorem decodeJump_error {op : JumpOp} {bs : List Byte} {e : DecodeError}
    (h : decodeJump op bs = .error e) : e = .truncated := by
  cases ht : takeField 8 bs with
  | error e' =>
    simp only [decodeJump, ht] at h
    cases h
    exact takeField_error ht
  | ok r => simp [decodeJump, ht] at h

/-- Bytes that are long enough fail to decode by their opcode byte or their Metadata byte. -/
theorem decode_error_cases {bs : List Byte} {e : DecodeError} (h : decode bs = .error e)
    (hne : e ≠ .truncated) :
    (∃ b rest, bs = b :: rest ∧ opcodeOf b = none ∧ e = .invalidOpcode) ∨
    (∃ b m rest o, bs = b :: m :: rest ∧ opcodeOf b = some o ∧ takesMetadata o = true ∧
      metadataPod m = .error e) := by
  cases bs with
  | nil => cases h; exact absurd rfl hne
  | cons b bs =>
    cases ho : opcodeOf b with
    | none =>
      simp only [decode, ho] at h
      cases h
      exact .inl ⟨b, bs, rfl, ho, rfl⟩
    | some o =>
      cases o with
      | typed op =>
        simp only [decode, ho] at h
        obtain ⟨m, rest, rfl, hm⟩ := decodeTyped_error h hne
        exact .inr ⟨b, m, rest, _, rfl, ho, rfl, hm⟩
      | jump op =>
        simp only [decode, ho] at h
        exact absurd (decodeJump_error h) hne
      | print =>
        simp only [decode, ho] at h
        obtain ⟨m, rest, rfl, hm⟩ := decodePrint_error h hne
        exact .inr ⟨b, m, rest, _, rfl, ho, rfl, hm⟩

/-- Settles O23: bytes that decode are an instruction's own bytes and a rest that grows, and a failure
other than truncation lies in the first one or two bytes. -/
theorem laterBytesDoNotChangeTheDecode : Obligations.LaterBytesDoNotChangeTheDecode := by
  intro bs more
  refine ⟨fun i rest h => ?_, fun e h hne => ?_⟩
  · rcases decode_ok_cases h with ⟨hwf, rfl⟩ | ⟨p, bit4, addr, rfl, rfl⟩
    · rw [List.append_assoc]
      exact decodeOfEncodeIsIdentity i (rest ++ more) hwf
    · simpa using decode_printBytes p addr bit4 (rest ++ more)
  · rcases decode_error_cases h hne with ⟨b, rest, rfl, ho, rfl⟩ | ⟨b, m, rest, o, rfl, ho, hmeta, hm⟩
    · exact decode_of_opcodeOf_none ho _
    · exact decode_of_metadataPod_error ho hmeta hm _

/-- Bytes that go on to an instruction but end inside it are truncated: were they to decode or to fail
otherwise, so would the whole instruction. -/
theorem decode_of_cut_short {i : Instr} {front back : List Byte}
    (hwhole : decode (front ++ back) = .ok (i, [])) (hback : back ≠ []) :
    decode front = .error .truncated := by
  obtain ⟨hok, herror⟩ := laterBytesDoNotChangeTheDecode front back
  cases h : decode front with
  | ok r =>
    have hlonger := (hok r.1 r.2 h).symm.trans hwhole
    simp only [Except.ok.injEq, Prod.mk.injEq, List.append_eq_nil_iff] at hlonger
    exact absurd hlonger.2.2 hback
  | error e =>
    by_cases he : e = .truncated
    · rw [he]
    · cases (herror e h he).symm.trans hwhole

/-- Settles O24, by running the decoder on the six byte strings. -/
theorem sampleWordsDecode : Obligations.SampleWordsDecode := ⟨rfl, rfl, rfl, rfl, rfl, rfl⟩

end Sys2Proof

namespace Sys2Proof.Machine

/-! # What a step keeps and what it changes

One inversion lemma for the step and one for each thing an instruction can touch (the three effects,
`ip`); the invariant and the frame statements are read off them. -/

/-- A step leaves a stopped machine alone, halts at the end of the program, enters a fault, or runs a
fetched instruction to its end. -/
theorem step_next_cases {s t : State} (h : step s = .next t) :
    (s.status.state ≠ .running ∧ t = s) ∨
    (s.status.state = .running ∧ s.ip = s.prog.length ∧ t = halt s) ∨
    (s.status.state = .running ∧ ∃ f, t = raiseFault s f) ∨
    (s.status.state = .running ∧ ∃ i, fetchInstr s = .ok i ∧ effect i s = .ok t) := by
  rcases step_cases s with ⟨hs, e⟩ | ⟨hs, hip, e⟩ | ⟨hs, _, f, _, e⟩ | ⟨hs, _, i, hf, e⟩
  · cases e.symm.trans h
    exact .inl ⟨hs, rfl⟩
  · cases e.symm.trans h
    exact .inr (.inl ⟨hs, hip, rfl⟩)
  · cases e.symm.trans h
    exact .inr (.inr (.inl ⟨hs, f, rfl⟩))
  · rcases exec_cases (e.symm.trans h) with hok | ⟨f, _, rfl⟩
    · exact .inr (.inr (.inr ⟨hs, i, hf, hok⟩))
    · exact .inr (.inr (.inl ⟨hs, f, rfl⟩))

/-! ## At most one effect -/

/-- `t` holds the memory of `s` after a write inside the capacity, and its `cmp` and `out`. -/
def WritesOnlyMemory (s t : State) : Prop :=
  (∃ o bs, o + bs.length ≤ s.capacity ∧ t.mem = writeBytes s.mem o bs) ∧
    t.cmp = s.cmp ∧ t.out = s.out

theorem moveResult_writesOnlyMemory {s t : State} {p : Pod} {dst : DataAddr} {x : Operand}
    (h : moveResult s p dst x = .ok t) : WritesOnlyMemory s t := by
  rcases moveResult_cases s p dst x with ⟨_, hle, e⟩ | ⟨_, e⟩ <;> cases e.symm.trans h
  exact ⟨⟨dst.toNat, x.bytes s p, by simpa using hle, rfl⟩, rfl, rfl⟩

theorem arithResult_writesOnlyMemory {alu : Pod → Nat → Nat → AluResult} {s t : State} {p : Pod}
    {dst : DataAddr} {x : Operand} (h : arithResult alu s p dst x = .ok t) :
    WritesOnlyMemory s t := by
  rcases arithResult_cases alu s p dst x with ⟨bs, _, hle, hbs, e⟩ | ⟨_, _, _, _, e⟩ | ⟨_, e⟩ <;>
    cases e.symm.trans h
  exact ⟨⟨dst.toNat, bs, by rwa [length_resultBytes hbs], by simp⟩, by simp, by simp⟩

theorem mem_of_jumpResult_ok {s t : State} {taken : Bool} {g : Target}
    (h : jumpResult s taken g = .ok t) : t.mem = s.mem := by
  rcases jumpResult_cases s taken g with ⟨_, _, e⟩ | ⟨_, _, e⟩ | ⟨_, e⟩ <;> cases e.symm.trans h
  · rfl
  · rfl

/-- A completed instruction writes memory (Move, arithmetic), or `cmp` at most (Compare, the jumps), or
appends one event (Print). -/
theorem effect_ok_one_effect {i : Instr} {s t : State} (h : effect i s = .ok t) :
    WritesOnlyMemory s t ∨ (t.mem = s.mem ∧ t.out = s.out) ∨
    (t.mem = s.mem ∧ t.cmp = s.cmp ∧
      ∃ p, ∃ addr : DataAddr, t.out = s.out ++ [⟨p, readBytes s.mem addr.toNat p.width⟩]) := by
  rcases instr_shapes i with ⟨p, dst, x, rfl⟩ | ⟨op, p, dst, x, _, _, he⟩ | ⟨p, dst, x, rfl⟩ |
    ⟨g, taken, _, he⟩ | ⟨p, addr, rfl⟩
  · exact .inl (moveResult_writesOnlyMemory (effect_move s p dst x ▸ h))
  · exact .inl (arithResult_writesOnlyMemory (he s ▸ h))
  · cases eq_of_compareResult_ok (effect_compare s p dst x ▸ h)
    exact .inr (.inl ⟨rfl, rfl⟩)
  · have hjump := (he s).symm.trans h
    exact .inr (.inl ⟨mem_of_jumpResult_ok hjump, (jumpResult_keeps hjump).out⟩)
  · cases eq_of_printResult_ok h
    exact .inr (.inr ⟨rfl, rfl, p, addr, rfl⟩)

/-! ## Where `ip` goes -/

@[simp] theorem length_typedInstr (op : TypedOp) (p : Pod) (dst : DataAddr) (x : Operand) :
    (typedInstr op p dst x).length = typedLength p x := by
  cases op <;> cases x <;> rfl

/-- The jump `i` to `g` is taken in `s` (42_compare_branch.md R133 to R135). -/
def TakesJump (s : State) (i : Instr) (g : Target) : Prop :=
  i = .jump g ∨ (i = .jumpIfEqual g ∧ s.cmp = .equal) ∨ (i = .jumpIfLessThan g ∧ s.cmp = .less)

/-- R13: a completed instruction moves `ip` past itself or is a jump that is taken. -/
theorem ip_of_effect_ok {i : Instr} {s t : State} (h : effect i s = .ok t) :
    t.ip = s.ip + i.length ∨
    ∃ g : Target, t.ip = g.toNat ∧ g.toNat ≤ s.prog.length ∧ TakesJump s i g := by
  rcases instr_shapes i with ⟨p, dst, x, rfl⟩ | ⟨op, p, dst, x, _, rfl, he⟩ | ⟨p, dst, x, rfl⟩ |
    ⟨g, taken, hi, he⟩ | ⟨p, addr, rfl⟩
  · rw [effect_move] at h
    rcases moveResult_cases s p dst x with ⟨_, _, e⟩ | ⟨_, e⟩ <;> cases e.symm.trans h
    exact .inl (by simp)
  · rw [he] at h
    rcases arithResult_cases (aluOf op) s p dst x with ⟨_, _, _, _, e⟩ | ⟨_, _, _, _, e⟩ | ⟨_, e⟩ <;>
      cases e.symm.trans h
    exact .inl (by simp)
  · cases eq_of_compareResult_ok (effect_compare s p dst x ▸ h)
    exact .inl (by simp)
  · rw [he] at h
    rcases jumpResult_cases s (taken s) g with ⟨ht, hle, e⟩ | ⟨_, _, e⟩ | ⟨_, e⟩ <;>
      cases e.symm.trans h
    · refine .inr ⟨g, rfl, hle, ?_⟩
      rcases hi with ⟨rfl, _⟩ | ⟨rfl, hc⟩ | ⟨rfl, hc⟩
      · exact .inl rfl
      · exact .inr (.inl ⟨rfl, by simpa [hc] using ht⟩)
      · exact .inr (.inr ⟨rfl, by simpa [hc] using ht⟩)
    · rcases hi with ⟨rfl, _⟩ | ⟨rfl, _⟩ | ⟨rfl, _⟩
      · exact .inl rfl
      · exact .inl rfl
      · exact .inl rfl
  · cases eq_of_printResult_ok h
    exact .inl rfl

theorem length_encode (i : Instr) : (encode i).length = i.length := by
  rcases instr_families i with ⟨op, p, dst, x, rfl⟩ | ⟨op, g, rfl⟩ | ⟨p, addr, rfl⟩
  · cases x with
    | imm v => simp [encode_typedInstr, operandField, typedLength]; omega
    | abs src => simp [encode_typedInstr, operandField, typedLength]
  · cases op <;> rfl
  · rfl

/-- What decodes is as long as its instruction and the rest together. -/
theorem length_of_decode_ok {bs rest : List Byte} {i : Instr} (h : decode bs = .ok (i, rest)) :
    bs.length = i.length + rest.length := by
  rcases decode_ok_cases h with ⟨_, rfl⟩ | ⟨p, bit4, addr, rfl, rfl⟩
  · rw [List.length_append, length_encode]
  · simp [Instr.length]
    omega

/-- A fetched instruction ends inside the program. -/
theorem ip_add_length_of_fetchInstr {s : State} {i : Instr} (h : fetchInstr s = .ok i)
    (hip : s.ip ≤ s.prog.length) : s.ip + i.length ≤ s.prog.length := by
  cases hd : decode (s.prog.drop s.ip) with
  | error e => simp [fetchInstr, hd] at h
  | ok r =>
    obtain ⟨j, rest⟩ := r
    simp only [fetchInstr, hd, Except.ok.injEq] at h
    subst h
    have hlen := length_of_decode_ok hd
    rw [List.length_drop] at hlen
    omega

/-! ## The invariant -/

theorem inv_halt {s : State} (hinv : s.Inv) (hrun : s.status.state = .running) : (halt s).Inv := by
  obtain ⟨hwf, hcap, hip, hprog, hfault, hout⟩ := hinv
  refine ⟨hwf, hcap, hip, hprog, ?_, hout⟩
  simpa [hrun] using hfault

theorem inv_raiseFault {s : State} (hinv : s.Inv) (f : Fault) : (raiseFault s f).Inv := by
  obtain ⟨hwf, hcap, hip, hprog, -, hout⟩ := hinv
  exact ⟨hwf, hcap, hip, hprog, by simp, hout⟩

/-- An instruction fetched and completed in a state the spec allows keeps every part of the invariant:
writes keep memory canonical and bounded, `ip` goes past the instruction or to a checked target, and an
event is as long as its Pod. -/
theorem inv_of_effect_ok {i : Instr} {s t : State} (hinv : s.Inv) (hfetch : fetchInstr s = .ok i)
    (h : effect i s = .ok t) : t.Inv := by
  obtain ⟨hwf, hcap, hip, hprog, hfault, hout⟩ := hinv
  obtain ⟨eprog, ecap, estatus⟩ := sameSetup_of_effect_ok h
  have hip' : t.ip ≤ t.prog.length := by
    rw [eprog]
    rcases ip_of_effect_ok h with e | ⟨g, e, hle, _⟩
    · exact e ▸ ip_add_length_of_fetchInstr hfetch hip
    · exact e ▸ hle
  have hprog' : t.prog.length < Config.programBound := eprog ▸ hprog
  have hfault' : t.status.fault.isSome = true ↔ t.status.state = .faulted := by rwa [estatus]
  rcases effect_ok_one_effect h with ⟨⟨o, bs, hle, emem⟩, _, eout⟩ | ⟨emem, eout⟩ |
    ⟨emem, _, p, addr, eout⟩
  · refine ⟨emem ▸ wf_writeBytes hwf o bs, ?_, hip', hprog', hfault', eout ▸ hout⟩
    rw [emem, ecap]
    exact writeBytes_bounded hcap hle
  · exact ⟨emem ▸ hwf, by rwa [emem, ecap], hip', hprog', hfault', eout ▸ hout⟩
  · refine ⟨emem ▸ hwf, by rwa [emem, ecap], hip', hprog', hfault', ?_⟩
    simp only [eout, List.mem_append, List.mem_singleton]
    rintro e (he | rfl)
    · exact hout e he
    · exact length_readBytes _ _ _

/-- Settles O11, by the four things a step can do. -/
theorem everyStepKeepsInv : Obligations.EveryStepKeepsInv := by
  intro s t hinv h
  rcases step_next_cases h with ⟨_, rfl⟩ | ⟨hrun, _, rfl⟩ | ⟨_, f, rfl⟩ | ⟨_, i, hfetch, hok⟩
  · exact hinv
  · exact inv_halt hinv hrun
  · exact inv_raiseFault hinv f
  · exact inv_of_effect_ok hinv hfetch hok

/-! ## Frames of the step -/

/-- Settles O7: only the halt check makes a Running status Halted, for an instruction keeps the status
and fault entry makes it Faulted. -/
theorem haltedOnlyByTheHaltCheck : Obligations.HaltedOnlyByTheHaltCheck := by
  intro s hrun
  refine ⟨fun hip => ?_, fun t h hhalted => ?_, fun hinv t h => ?_⟩
  · simp [step, hrun, atEnd, hip, halt]
  · rcases step_next_cases h with ⟨hs, _⟩ | ⟨_, hip, _⟩ | ⟨_, f, rfl⟩ | ⟨_, i, _, hok⟩
    · exact absurd hrun hs
    · exact hip
    · cases hhalted
    · rw [status_of_effect_ok hok, hrun] at hhalted
      cases hhalted
  · obtain ⟨_, _, hip, _⟩ := everyStepKeepsInv s t hinv h
    exact hip

/-- Settles O9: every meaning is concluded, and a conclusion is a next state. -/
theorem stepAlwaysAnswersNext : Obligations.StepAlwaysAnswersNext := by
  intro s
  rcases step_cases s with ⟨_, e⟩ | ⟨_, _, e⟩ | ⟨_, _, f, _, e⟩ | ⟨_, _, i, _, e⟩
  · exact ⟨_, e⟩
  · exact ⟨_, e⟩
  · exact ⟨_, e⟩
  · rw [e, exec_eq_conclude]
    exact conclude_next s _

/-- Settles O10: a completed instruction stays Running, so only fault entry leads to Faulted. -/
theorem faultsArePrecise : Obligations.FaultsArePrecise := by
  intro s t hrun h hfaulted
  rcases step_next_cases h with ⟨hs, _⟩ | ⟨_, _, rfl⟩ | ⟨_, f, rfl⟩ | ⟨_, i, _, hok⟩
  · exact absurd hrun hs
  · cases hfaulted
  · exact ⟨f, rfl⟩
  · rw [status_of_effect_ok hok, hrun] at hfaulted
    cases hfaulted

/-- Settles O12: the halt check and fault entry touch none of the three, an instruction at most one. -/
theorem atMostOneEffectPerStep : Obligations.AtMostOneEffectPerStep := by
  intro s t h
  rcases step_next_cases h with ⟨_, rfl⟩ | ⟨_, _, rfl⟩ | ⟨_, f, rfl⟩ | ⟨_, i, _, hok⟩
  · exact .inl ⟨rfl, rfl⟩
  · exact .inl ⟨rfl, rfl⟩
  · exact .inl ⟨rfl, rfl⟩
  · rcases effect_ok_one_effect hok with ⟨_, hcmp, hout⟩ | ⟨hmem, hout⟩ | ⟨hmem, hcmp, _⟩
    · exact .inl ⟨hcmp, hout⟩
    · exact .inr (.inl ⟨hmem, hout⟩)
    · exact .inr (.inr ⟨hmem, hcmp⟩)

/-- Settles O15: the halt check, fault entry and every instruction keep both. -/
theorem programAndCapacityNeverChange : Obligations.ProgramAndCapacityNeverChange := by
  intro s t h
  rcases step_next_cases h with ⟨_, rfl⟩ | ⟨_, _, rfl⟩ | ⟨_, f, rfl⟩ | ⟨_, i, _, hok⟩
  · exact ⟨rfl, rfl⟩
  · exact ⟨rfl, rfl⟩
  · exact ⟨rfl, rfl⟩
  · obtain ⟨hprog, hcap, _⟩ := sameSetup_of_effect_ok hok
    exact ⟨hprog, hcap⟩

/-- Settles O29: an instruction that stays Running has not entered a fault. -/
theorem completedInstructionMovesIp : Obligations.CompletedInstructionMovesIp := by
  intro i s t _ h hrunning
  rcases exec_cases h with hok | ⟨f, _, rfl⟩
  · exact ip_of_effect_ok hok
  · cases hrunning

/-! ## What does not depend on `cmp`

The shared bodies commute with replacing `cmp`, but for Compare, which overwrites it. -/

/-- `s` with another Comparison Register value. -/
def withCmp (c : CmpValue) (s : State) : State := { s with cmp := c }

@[simp] theorem operandBytes_withCmp (c : CmpValue) (s : State) (p : Pod) (x : Operand) :
    operandBytes (withCmp c s) p x = operandBytes s p x := by cases x <;> rfl

@[simp] theorem memRead_withCmp (c : CmpValue) (s : State) (o k : Nat) :
    memRead (withCmp c s) o k = memRead s o k := rfl

@[simp] theorem resultBytes_withCmp (c : CmpValue) (s : State) (p : Pod) (r : AluResult) :
    resultBytes (withCmp c s) p r = resultBytes s p r := by cases r <;> rfl

@[simp] theorem countDraw_withCmp (c : CmpValue) (s : State) (r : AluResult) :
    countDraw (withCmp c s) r = withCmp c (countDraw s r) := by cases r <;> rfl

@[simp] theorem memWrite_withCmp (c : CmpValue) (s : State) (o : Nat) (bs : List Byte) :
    memWrite (withCmp c s) o bs = (memWrite s o bs).map (withCmp c) := by
  rcases memWrite_cases s o bs with ⟨h, e⟩ | ⟨h, e⟩
  · rw [e]
    exact memWrite_of_le h
  · rw [e]
    exact memWrite_of_lt h

theorem moveResult_withCmp (c : CmpValue) (s : State) (p : Pod) (dst : DataAddr) (x : Operand) :
    moveResult (withCmp c s) p dst x = (moveResult s p dst x).map (withCmp c) := by
  simp only [moveResult, operandBytes_withCmp, memWrite_withCmp]
  cases operandBytes s p x with
  | error f => rfl
  | ok bb => dsimp only; cases memWrite s dst.toNat bb <;> rfl

theorem arithResult_withCmp (alu : Pod → Nat → Nat → AluResult) (c : CmpValue) (s : State) (p : Pod)
    (dst : DataAddr) (x : Operand) :
    arithResult alu (withCmp c s) p dst x = (arithResult alu s p dst x).map (withCmp c) := by
  simp only [arithResult, operandBytes_withCmp, memRead_withCmp, resultBytes_withCmp,
    memWrite_withCmp]
  cases operandBytes s p x with
  | error f => rfl
  | ok bb =>
    dsimp only
    cases memRead s dst.toNat p.width with
    | error f => rfl
    | ok ba =>
      dsimp only
      cases resultBytes s p (alu p (le ba) (le bb)) with
      | error f => rfl
      | ok r =>
        dsimp only
        cases memWrite s dst.toNat r with
        | error f => rfl
        | ok t => simp only [Except.map, countDraw_withCmp]; rfl

theorem compareResult_withCmp (c : CmpValue) (s : State) (p : Pod) (dst : DataAddr) (x : Operand) :
    compareResult (withCmp c s) p dst x = compareResult s p dst x := by
  simp only [compareResult, operandBytes_withCmp, memRead_withCmp]
  rfl

theorem jumpResult_withCmp (c : CmpValue) (s : State) (taken : Bool) (g : Target) :
    jumpResult (withCmp c s) taken g = (jumpResult s taken g).map (withCmp c) := by
  unfold jumpResult
  split
  · show (if g.toNat ≤ s.prog.length then _ else _) = _
    split <;> rfl
  · rfl

theorem printResult_withCmp (c : CmpValue) (s : State) (p : Pod) (addr : DataAddr) :
    printResult (withCmp c s) p addr = (printResult s p addr).map (withCmp c) := by
  simp only [printResult, memRead_withCmp]
  cases memRead s addr.toNat p.width <;> rfl

/-- An instruction that is no conditional jump does the same whatever `cmp` holds, and is a Compare,
whose result does not hold the old `cmp`, or keeps `cmp`. -/
theorem effect_withCmp {i : Instr} (hne : ∀ g, i ≠ .jumpIfEqual g) (hnl : ∀ g, i ≠ .jumpIfLessThan g)
    (c : CmpValue) (s : State) :
    effect i (withCmp c s) = effect i s ∨
    (effect i (withCmp c s) = (effect i s).map (withCmp c) ∧
      ∀ t, effect i s = .ok t → t.cmp = s.cmp) := by
  rcases instr_shapes i with ⟨p, dst, x, rfl⟩ | ⟨op, p, dst, x, _, _, he⟩ | ⟨p, dst, x, rfl⟩ |
    ⟨g, taken, hi, he⟩ | ⟨p, addr, rfl⟩
  · simp only [effect_move]
    exact .inr ⟨moveResult_withCmp c s p dst x, fun t h => (moveResult_keeps h).cmp⟩
  · simp only [he]
    exact .inr ⟨arithResult_withCmp _ c s p dst x, fun t h => (arithResult_keeps h).cmp⟩
  · simp only [effect_compare]
    exact .inl (compareResult_withCmp c s p dst x)
  · rcases hi with ⟨rfl, htaken⟩ | ⟨rfl, _⟩ | ⟨rfl, _⟩
    · simp only [he, htaken]
      exact .inr ⟨jumpResult_withCmp c s true g, fun t h => (jumpResult_keeps h).cmp⟩
    · exact absurd rfl (hne g)
    · exact absurd rfl (hnl g)
  · exact .inr ⟨printResult_withCmp c s p addr, fun t h => by rw [eq_of_printResult_ok h]⟩

theorem exec_withCmp {i : Instr} (hne : ∀ g, i ≠ .jumpIfEqual g) (hnl : ∀ g, i ≠ .jumpIfLessThan g)
    (c : CmpValue) {s t : State} (h : exec i s = .next t) :
    ∃ d, exec i (withCmp c s) = .next (withCmp d t) ∧ (d = t.cmp ∨ (t.cmp = s.cmp ∧ d = c)) := by
  rw [exec_eq_conclude i (withCmp c s)]
  rcases exec_cases h with hok | ⟨f, herr, rfl⟩
  · rcases effect_withCmp hne hnl c s with e | ⟨e, hkeep⟩
    · exact ⟨t.cmp, by rw [e, hok]; rfl, .inl rfl⟩
    · exact ⟨c, by rw [e, hok]; rfl, .inr ⟨hkeep t hok, rfl⟩⟩
  · refine ⟨c, ?_, .inr ⟨rfl, rfl⟩⟩
    rcases effect_withCmp hne hnl c s with e | ⟨e, _⟩
    · rw [e, herr]; rfl
    · rw [e, herr]; rfl

theorem mem_of_exec_jump {i : Instr} {s t : State} {taken : Bool} {g : Target}
    (he : effect i s = jumpResult s taken g) (h : exec i s = .next t) : t.mem = s.mem := by
  rcases exec_cases h with hok | ⟨f, _, rfl⟩
  · exact mem_of_jumpResult_ok (he.symm.trans hok)
  · rfl

/-- Settles O14: the bodies commute with replacing `cmp`, and the two jumps that read it leave memory
alone. -/
theorem onlyConditionalJumpsReadCmp : Obligations.OnlyConditionalJumpsReadCmp := by
  intro i s c
  refine ⟨fun hne hnl t h => exec_withCmp hne hnl c h, fun t u ht hu => ?_⟩
  by_cases hne : ∃ g, i = .jumpIfEqual g
  · obtain ⟨g, rfl⟩ := hne
    exact (mem_of_exec_jump rfl hu).trans (mem_of_exec_jump rfl ht).symm
  by_cases hnl : ∃ g, i = .jumpIfLessThan g
  · obtain ⟨g, rfl⟩ := hnl
    exact (mem_of_exec_jump rfl hu).trans (mem_of_exec_jump rfl ht).symm
  obtain ⟨d, hd, _⟩ := exec_withCmp (not_exists.1 hne) (not_exists.1 hnl) c ht
  cases hd.symm.trans hu
  rfl

end Sys2Proof.Machine

namespace Sys2Proof.Machine

/-! # Fetch and its faults

A step of a Running state whose bytes at `ip` do not decode enters the fault of that failure
(60_exceptions.md R201 to R203); the statements say which bytes fail how. -/

theorem ip_ne_length_of_drop {s : State} {b : Byte} {bs : List Byte} (h : s.prog.drop s.ip = b :: bs) :
    s.ip ≠ s.prog.length := by
  intro hip
  simp [hip] at h

/-- Settles O6: bytes that decode are not the end of the program, so the step goes on to the
instruction. -/
theorem stepRunsDecodedInstruction : Obligations.StepRunsDecodedInstruction := by
  intro s i rest hrun hdecode
  cases hbytes : s.prog.drop s.ip with
  | nil =>
    rw [hbytes] at hdecode
    cases hdecode
  | cons b bs =>
    have hip := ip_ne_length_of_drop hbytes
    simp [step, hrun, atEnd, hip, fetchInstr, hdecode]

theorem step_of_decode_error {s : State} {b : Byte} {bs : List Byte} {e : DecodeError}
    (hrun : s.status.state = .running) (hbytes : s.prog.drop s.ip = b :: bs)
    (herr : decode (b :: bs) = .error e) : step s = .next (FaultedFrom s (fetchFault e)) := by
  have hip := ip_ne_length_of_drop hbytes
  simp [step, hrun, atEnd, hip, fetchInstr, hbytes, herr, raiseFault]

/-- Settles O25: no opcode has such a byte, and nothing after it is looked at. -/
theorem illegalOpcodeFaults : Obligations.IllegalOpcodeFaults := by
  intro s b rest hrun hbytes hb
  exact step_of_decode_error hrun hbytes (decode_of_opcodeOf_none (opcodeOf_eq_none hb) rest)

/-! ## Metadata -/

/-- The opcode bytes 0 to 5 and 9 are followed by a Metadata byte. -/
theorem opcodeOf_takesMetadata {b : Byte} (h : b.toNat ≤ 5 ∨ b.toNat = 9) :
    ∃ o, opcodeOf b = some o ∧ takesMetadata o = true := by
  have hb : b.toNat = 0 ∨ b.toNat = 1 ∨ b.toNat = 2 ∨ b.toNat = 3 ∨ b.toNat = 4 ∨ b.toNat = 5 ∨
      b.toNat = 9 := by omega
  rcases hb with e | e | e | e | e | e | e <;> exact ⟨_, by simp only [opcodeOf, e]; rfl, rfl⟩

/-- R55: the codes 6 and 7 name no Pod. -/
theorem ofCode_eq_none {c : BitVec 3} (h : 6 ≤ c.toNat) : Pod.ofCode c = none := by
  have hc : c.toNat = 6 ∨ c.toNat = 7 := by omega
  rcases hc with e | e <;> simp only [Pod.ofCode, e]

theorem metadataPod_of_badPod {m : Byte} (h : 6 ≤ m.toNat / 32) :
    metadataPod m = .error .invalidPod := by
  have hcode : 6 ≤ (m.extractLsb' 5 3).toNat := by
    rw [BitVec.extractLsb'_toNat, Nat.shiftRight_eq_div_pow]
    omega
  simp [metadataPod, ofCode_eq_none hcode]

/-- R56: a set bit of 3:0 is refused, by the Pod if that is bad too. -/
theorem metadataPod_of_reservedBits {m : Byte} (h : m.toNat % 16 ≠ 0) :
    ∃ e, metadataPod m = .error e ∧ fetchFault e = .invalidMetadata := by
  have hlow : m.extractLsb' 0 4 ≠ 0 := by
    intro e
    have := congrArg BitVec.toNat e
    simp [BitVec.extractLsb'_toNat, h] at this
  cases hp : Pod.ofCode (m.extractLsb' 5 3) with
  | none => exact ⟨.invalidPod, by simp [metadataPod, hp], rfl⟩
  | some p => exact ⟨.reservedBits, by simp only [metadataPod, hp, if_neg hlow], rfl⟩

/-- An opcode followed by a Metadata byte that is refused ends in InvalidMetadata. -/
theorem step_of_badMetadata {s : State} {b m : Byte} {rest : List Byte} {e : DecodeError}
    (hrun : s.status.state = .running) (hbytes : s.prog.drop s.ip = b :: m :: rest)
    (hb : b.toNat ≤ 5 ∨ b.toNat = 9) (hm : metadataPod m = .error e)
    (hfault : fetchFault e = .invalidMetadata) : step s = .next (FaultedFrom s .invalidMetadata) := by
  obtain ⟨o, ho, hmeta⟩ := opcodeOf_takesMetadata hb
  rw [step_of_decode_error hrun hbytes (decode_of_metadataPod_error ho hmeta hm rest), hfault]

/-- Settles O26: the Pod codes 6 and 7, and the reserved bits. -/
theorem badMetadataFaults : Obligations.BadMetadataFaults := by
  intro s b m rest hrun hbytes
  refine ⟨fun hb hpod => ?_, fun hb hlow => ?_⟩
  · exact step_of_badMetadata hrun hbytes hb (metadataPod_of_badPod hpod) rfl
  · obtain ⟨e, hm, hfault⟩ := metadataPod_of_reservedBits hlow
    exact step_of_badMetadata hrun hbytes (.inl hb) hm hfault

/-- Settles O27: either spelling of Print decodes, and its reserved bits are refused as a typed
opcode's are. -/
theorem printIgnoresBitFourOnly : Obligations.PrintIgnoresBitFourOnly := by
  refine ⟨fun p addr rest bit4 => decode_printBytes p addr bit4 rest,
    fun s m rest hrun hbytes hlow => ?_⟩
  obtain ⟨e, hm, hfault⟩ := metadataPod_of_reservedBits hlow
  exact step_of_badMetadata hrun hbytes (.inr rfl) hm hfault

/-! ## Truncation -/

/-- Settles O28: either spelling is whole bytes that decode with nothing left over, so bytes cut off
before their end are truncated. -/
theorem truncatedInstructionFaults : Obligations.TruncatedInstructionFaults := by
  intro s front back hrun hspelled hfront hback hbytes
  have hwhole : ∃ i, decode (front ++ back) = .ok (i, []) := by
    rcases hspelled with ⟨i, hwf, e⟩ | ⟨p, addr, e⟩
    · refine ⟨i, ?_⟩
      rw [← e]
      simpa using decodeOfEncodeIsIdentity i [] hwf
    · refine ⟨.print p addr, ?_⟩
      rw [← e]
      exact List.append_nil (leBytes 4 addr.toNat) ▸ decode_printBytes p addr true []
  obtain ⟨i, hi⟩ := hwhole
  obtain ⟨b, bs, rfl⟩ := List.exists_cons_of_ne_nil hfront
  exact step_of_decode_error hrun hbytes (decode_of_cut_short hi hback)

/-! # Reset and the host -/

/-- Settles O1: the fields of the constructed state. -/
theorem resetLeavesTheStatedValues : Obligations.ResetLeavesTheStatedValues :=
  fun _ _ => ⟨rfl, rfl, fun _ => rfl, rfl, rfl, rfl, rfl⟩

theorem inv_resetWith {prog : List Byte} (capacity : Nat) (h : prog.length < Config.programBound) :
    (State.resetWith prog capacity).Inv :=
  ⟨rfl, by simp, Nat.zero_le _, h, by simp, by simp⟩

/-- Settles O2; `State.reset` is a construction with the empty program. -/
theorem invHoldsAfterReset : Obligations.InvHoldsAfterReset :=
  ⟨fun _ n h => inv_resetWith n h, inv_resetWith _ (by decide)⟩

/-- Settles O3: `ip = P` at once, so the first step is the halt check's. -/
theorem emptyProgramHaltsAtOnce : Obligations.EmptyProgramHaltsAtOnce := by
  intro n
  have hstep := (haltedOnlyByTheHaltCheck (State.resetWith [] n) rfl).1 rfl
  refine ⟨hstep, ?_⟩
  simp [run, runResult, hstep]

/-- Reset is allowed when the machine is not running, for a program that is not too long. -/
theorem hostReset_eq_some_iff {x y : Instance} {prog : List Byte} {n : Nat} :
    hostReset x prog n = some y ↔
      (resettable x = true ∧ prog.length < Config.programBound) ∧
        construct prog n x.core.nanDraws = y := by
  simp [hostReset]

/-- Settles O4: what the host's reset, its call and its step do, each by its own lemma. -/
theorem hostResetsOnlyWhenNotRunning : Obligations.HostResetsOnlyWhenNotRunning := by
  intro x prog n
  refine ⟨?_, fun y h => ?_, rfl, fun hbegun t hstep => ?_, fun hbegun => ?_⟩
  · simp [hostReset_eq_some_iff, resettable_iff, Config.programBound]
  · obtain ⟨_, rfl⟩ := hostReset_eq_some_iff.1 h
    exact ⟨rfl, rfl, rfl, rfl, rfl, rfl, rfl, rfl⟩
  · simp [stepRun, hbegun, hstep]
  · simp [stepRun, hbegun]

/-- Settles O5, by the three tables. -/
theorem statusEncodingsFollowTheTables : Obligations.StatusEncodingsFollowTheTables :=
  ⟨⟨rfl, rfl, rfl, rfl⟩, ⟨rfl, rfl, rfl⟩, rfl, rfl, rfl, rfl, rfl, rfl⟩

/-! # Runs -/

theorem step_of_stopped {s : State} (h : s.status.state ≠ .running) : step s = .next s := by
  rcases step_cases s with ⟨_, e⟩ | ⟨hrun, _⟩ | ⟨hrun, _⟩ | ⟨hrun, _⟩
  · exact e
  · exact absurd hrun h
  · exact absurd hrun h
  · exact absurd hrun h

/-- Halted and Faulted are absorbing. -/
theorem eq_of_reaches_of_stopped {n : Nat} {s t : State} (h : s.status.state ≠ .running)
    (hreach : Reaches n s t) : t = s := by
  induction n with
  | zero => exact hreach.symm
  | succ n ih =>
    obtain ⟨u, hstep, hrest⟩ := hreach
    cases (step_of_stopped h).symm.trans hstep
    exact ih hrest

theorem run_of_runResult {s : State} {r : RunResult} (h : runResult s.status = some r) (fuel : Nat) :
    run fuel s = some (r, s) := by
  cases fuel with
  | zero => simp [run, h]
  | succ fuel => simp [run, h]

theorem run_succ_of_step {s u : State} (hnone : runResult s.status = none) (hstep : step s = .next u)
    (fuel : Nat) : run (fuel + 1) s = run fuel u := by
  simp [run, hnone, hstep]

/-- A status that stands for a result is not Running. -/
theorem stopped_of_runResult {st : Status} {r : RunResult} (h : runResult st = some r) :
    st.state ≠ .running := by
  intro hrun
  simp [runResult, hrun] at h

/-- Settles O8: a step of a stopped state answers that state, and a run answers its result at once. -/
theorem stoppedInstanceNeverChanges : Obligations.StoppedInstanceNeverChanges := fun _ hs =>
  ⟨fun _ _ => eq_of_reaches_of_stopped hs, fun fuel _ h => run_of_runResult h fuel⟩

/-- A run that answers stops in a state that steps reach, with that state's result. -/
theorem reaches_of_run {fuel : Nat} {s t : State} {r : RunResult} (h : run fuel s = some (r, t)) :
    runResult t.status = some r ∧ ∃ n, n ≤ fuel ∧ Reaches n s t := by
  induction fuel generalizing s with
  | zero =>
    simp only [run, Option.map_eq_some_iff, Prod.mk.injEq] at h
    obtain ⟨r', hr, rfl, rfl⟩ := h
    exact ⟨hr, 0, Nat.le_refl 0, rfl⟩
  | succ fuel ih =>
    cases hres : runResult s.status with
    | some r' =>
      cases (run_of_runResult hres (fuel + 1)).symm.trans h
      exact ⟨hres, 0, Nat.zero_le _, rfl⟩
    | none =>
      obtain ⟨u, hstep⟩ := stepAlwaysAnswersNext s
      rw [run_succ_of_step hres hstep] at h
      obtain ⟨hr, n, hn, hreach⟩ := ih h
      exact ⟨hr, n + 1, Nat.succ_le_succ hn, u, hstep, hreach⟩

/-- A run with fuel for the steps to a stopped state answers that state and its result. -/
theorem run_of_reaches {n : Nat} {s t : State} {r : RunResult} (hreach : Reaches n s t)
    (h : runResult t.status = some r) (k : Nat) : run (n + k) s = some (r, t) := by
  induction n generalizing s with
  | zero =>
    cases hreach
    exact run_of_runResult h _
  | succ n ih =>
    cases hres : runResult s.status with
    | some r' =>
      cases eq_of_reaches_of_stopped (stopped_of_runResult hres) hreach
      exact run_of_runResult h _
    | none =>
      obtain ⟨u, hstep, hrest⟩ := hreach
      rw [Nat.add_right_comm, run_succ_of_step hres hstep]
      exact ih hrest

/-- Settles O18: the run answers what it reaches, and any larger fuel is enough for the same steps. -/
theorem runAnswersWhatItReaches : Obligations.RunAnswersWhatItReaches := by
  intro fuel s t r h
  obtain ⟨hres, n, hn, hreach⟩ := reaches_of_run h
  refine ⟨hres, ⟨n, hn, hreach⟩, fun k => ?_⟩
  obtain ⟨extra, rfl⟩ := Nat.exists_eq_add_of_le hn
  rw [Nat.add_assoc]
  exact run_of_reaches hreach hres _

theorem inv_of_reaches {n : Nat} {s t : State} (hinv : s.Inv) (hreach : Reaches n s t) : t.Inv := by
  induction n generalizing s with
  | zero =>
    cases hreach
    exact hinv
  | succ n ih =>
    obtain ⟨u, hstep, hrest⟩ := hreach
    exact ih (everyStepKeepsInv s u hinv hstep) hrest

theorem faulted_of_runResult_err {st : Status} {f : Fault} (h : runResult st = some (.err f)) :
    st.state = .faulted := by
  cases hs : st.state with
  | running => exact absurd hs (stopped_of_runResult h)
  | halted => simp [runResult, hs] at h
  | faulted => rfl

/-- In a state the spec allows, Faulted carries its fault, which is what `run()` answers. -/
theorem runResult_of_faulted {s : State} (hinv : s.Inv) (h : s.status.state = .faulted) :
    ∃ f, runResult s.status = some (.err f) := by
  obtain ⟨_, _, _, _, hfault, _⟩ := hinv
  obtain ⟨f, hf⟩ := Option.isSome_iff_exists.1 (hfault.2 h)
  exact ⟨f, by simp [runResult, h, hf]⟩

/-- Settles O19: Err is the answer of exactly the runs that reach Faulted. -/
theorem safeRunIsNoErr : Obligations.SafeRunIsNoErr := by
  intro s hinv
  refine ⟨fun hsafe fuel f t h => ?_, fun hnoErr n t hreach hfaulted => ?_⟩
  · obtain ⟨hres, n, _, hreach⟩ := reaches_of_run h
    exact hsafe n t hreach (faulted_of_runResult_err hres)
  · obtain ⟨f, hres⟩ := runResult_of_faulted (inv_of_reaches hinv hreach) hfaulted
    exact hnoErr n f t (run_of_reaches hreach hres 0)

/-- No step retracts an event. -/
theorem out_of_step {s t : State} (h : step s = .next t) : ∃ events, t.out = s.out ++ events := by
  rcases step_next_cases h with ⟨_, rfl⟩ | ⟨_, _, rfl⟩ | ⟨_, f, rfl⟩ | ⟨_, i, _, hok⟩
  · exact ⟨[], by simp⟩
  · exact ⟨[], by simp⟩
  · exact ⟨[], by simp⟩
  · rcases effect_ok_one_effect hok with ⟨_, _, hout⟩ | ⟨_, hout⟩ | ⟨_, _, p, addr, hout⟩
    · exact ⟨[], by simp [hout]⟩
    · exact ⟨[], by simp [hout]⟩
    · exact ⟨_, hout⟩

/-- Settles O20, by induction on the number of steps. -/
theorem outputIsNeverRetracted : Obligations.OutputIsNeverRetracted := by
  intro n s t hreach
  induction n generalizing s with
  | zero =>
    cases hreach
    exact ⟨[], by simp⟩
  | succ n ih =>
    obtain ⟨u, hstep, hrest⟩ := hreach
    obtain ⟨first, hfirst⟩ := out_of_step hstep
    obtain ⟨later, hlater⟩ := ih u hrest
    exact ⟨first ++ later, by rw [hlater, hfirst, List.append_assoc]⟩

end Sys2Proof.Machine

namespace Sys2Proof.Machine

/-! # Bytes inside a wider write -/

theorem getElem?_leBytes (k v : Nat) {j : Nat} (hj : j < k) :
    (leBytes k v)[j]? = some (BitVec.ofNat 8 (v / 256 ^ j)) := by
  induction k generalizing v j with
  | zero => omega
  | succ k ih =>
    cases j with
    | zero => simp [leBytes]
    | succ j =>
      have htail := ih (v / 256) (Nat.lt_of_succ_lt_succ hj)
      rwa [Nat.div_div_eq_div_mul, ← Nat.pow_succ'] at htail

/-- Settles O33: the written bytes read back, and byte `j` of them is that of the value. -/
theorem narrowReadSeesLittleEndianByte : Obligations.NarrowReadSeesLittleEndianByte := by
  intro s t o k v j hwf hj hwrite
  have hle : o + (leBytes k v).length ≤ s.capacity := memWrite_eq_ok_iff.1 ⟨t, hwrite⟩
  obtain ⟨u, hu, hread, -, -⟩ := memWrite_reads_back hwf hle
  cases hu.symm.trans hwrite
  rw [length_leBytes] at hread
  have hbyte := getElem?_readBytes t.mem o hj
  rw [hread, getElem?_leBytes k v hj] at hbyte
  exact (Option.some.inj hbyte).symm

/-! # What an instruction faults with

Which fault each shared body raises, and from that one inversion lemma for an effect that faults. -/

theorem typedOp_cases (op : TypedOp) : op = .move ∨ op = .compare ∨ Arithmetic op := by
  by_cases hm : op = .move
  · exact .inl hm
  by_cases hc : op = .compare
  · exact .inr (.inl hc)
  exact .inr (.inr ⟨hm, hc⟩)

/-- An access of a typed instruction lies outside the Memory Region. -/
def AccessOutside (s : State) (p : Pod) (dst : DataAddr) (x : Operand) : Prop :=
  ¬ OperandInRegion s p x ∨ ¬ InRegion s p dst

/-- In the order of checks the accesses come first: with one outside, a typed instruction meets
MemoryFault, whatever its operands are (40_execution_cycle.md R89). -/
theorem effect_of_accessOutside {s : State} {p : Pod} {dst : DataAddr} {x : Operand}
    (h : AccessOutside s p dst x) (op : TypedOp) :
    effect (typedInstr op p dst x) s = .error .memoryFault := by
  have hclash : OperandInRegion s p x → ¬ InRegion s p dst := fun hx hdst => h.elim (· hx) (· hdst)
  rcases typedOp_cases op with rfl | rfl | hop
  · rw [effect_move]
    rcases moveResult_cases s p dst x with ⟨hx, hdst, _⟩ | ⟨_, e⟩
    · exact absurd hdst (hclash hx)
    · exact e
  · rw [effect_compare]
    rcases compareResult_cases s p dst x with ⟨hx, hdst, _⟩ | ⟨_, e⟩
    · exact absurd hdst (hclash hx)
    · exact e
  · rw [effect_arithmetic hop]
    rcases arithResult_cases (aluOf op) s p dst x with ⟨_, hx, hdst, _⟩ | ⟨_, hx, hdst, _⟩ | ⟨_, e⟩
    · exact absurd hdst (hclash hx)
    · exact absurd hdst (hclash hx)
    · exact e

theorem accessOutside_of_lt {s : State} {p : Pod} {dst : DataAddr} {x : Operand}
    (h : ¬ OperandInRegion s p x ∨ s.capacity < dst.toNat + p.width) : AccessOutside s p dst x :=
  h.imp_right Nat.not_le.2

/-- Only an ALU fault faults once the accesses have passed. -/
theorem eq_fault_of_resultBytes_error {s : State} {p : Pod} {r : AluResult} {f : Fault}
    (h : resultBytes s p r = .error f) : r = .fault f := by
  cases r with
  | value bits => cases h
  | nan fmt => cases h
  | fault g => cases h; rfl

theorem floatResult_ne_fault (f : FloatFormat) (r : Option Nat) (g : Fault) :
    floatResult f r ≠ .fault g := by
  cases r <;> nofun

/-- R102, R205: an ALU function faults in Divide on an integer Pod by zero only. -/
theorem aluOf_eq_fault {op : TypedOp} {p : Pod} {a b : Nat} {f : Fault}
    (h : aluOf op p a b = .fault f) :
    op = .divide ∧ f = .arithmeticFault ∧ b = 0 ∧ ∃ n, p.valueType = .unsigned n := by
  cases op with
  | move | compare => cases h
  | add | subtract | multiply =>
    simp only [aluOf, aluAdd, aluSub, aluMul] at h
    split at h
    · cases h
    · exact absurd h (floatResult_ne_fault _ _ _)
  | divide =>
    simp only [aluOf, aluDiv] at h
    split at h
    · next n hp =>
      split at h
      · next hb => cases h; exact ⟨rfl, rfl, hb, n, hp⟩
      · cases h
    · exact absurd h (floatResult_ne_fault _ _ _)

/-- `i` is a Divide on an integer Pod by zero whose accesses lie in the Memory Region. -/
def DividesByZero (s : State) (i : Instr) : Prop :=
  ∃ p n dst x, i = typedInstr .divide p dst x ∧ p.valueType = .unsigned n ∧
    OperandInRegion s p x ∧ InRegion s p dst ∧ operandValue s p x = 0

/-- `i` is a typed instruction with an access outside the Memory Region, or a Print of one. -/
def ReachesOutside (s : State) (i : Instr) : Prop :=
  (∃ op p dst x, i = typedInstr op p dst x ∧ AccessOutside s p dst x) ∨
  (∃ p addr, i = .print p addr ∧ ¬ InRegion s p addr)

/-- Why an instruction faults. -/
theorem effect_error_cases {i : Instr} {s : State} {f : Fault} (h : effect i s = .error f) :
    (f = .memoryFault ∧ ReachesOutside s i) ∨ (f = .arithmeticFault ∧ DividesByZero s i) ∨
    f = .unexpectedEndOfProgram := by
  rcases instr_shapes i with ⟨p, dst, x, rfl⟩ | ⟨op, p, dst, x, _, rfl, he⟩ | ⟨p, dst, x, rfl⟩ |
    ⟨g, taken, _, he⟩ | ⟨p, addr, rfl⟩
  · rw [effect_move] at h
    rcases moveResult_cases s p dst x with ⟨_, _, e⟩ | ⟨hout, e⟩ <;> cases e.symm.trans h
    exact .inl ⟨rfl, .inl ⟨_, p, dst, x, rfl, accessOutside_of_lt hout⟩⟩
  · rw [he] at h
    rcases arithResult_cases (aluOf op) s p dst x with ⟨_, _, _, _, e⟩ | ⟨_, hx, hdst, hr, e⟩ |
      ⟨hout, e⟩ <;> cases e.symm.trans h
    · obtain ⟨rfl, rfl, hb, n, hp⟩ := aluOf_eq_fault (eq_fault_of_resultBytes_error hr)
      exact .inr (.inl ⟨rfl, p, n, dst, x, rfl, hp, hx, hdst, hb⟩)
    · exact .inl ⟨rfl, .inl ⟨_, p, dst, x, rfl, accessOutside_of_lt hout⟩⟩
  · rw [effect_compare] at h
    rcases compareResult_cases s p dst x with ⟨_, _, e⟩ | ⟨hout, e⟩ <;> cases e.symm.trans h
    exact .inl ⟨rfl, .inl ⟨_, p, dst, x, rfl, accessOutside_of_lt hout⟩⟩
  · rw [he] at h
    rcases jumpResult_cases s (taken s) g with ⟨_, _, e⟩ | ⟨_, _, e⟩ | ⟨_, e⟩ <;>
      cases e.symm.trans h
    exact .inr (.inr rfl)
  · rcases printResult_cases s p addr with ⟨_, e⟩ | ⟨hlt, e⟩ <;> cases e.symm.trans h
    exact .inl ⟨rfl, .inr ⟨p, addr, rfl, Nat.not_le.2 hlt⟩⟩

/-- A fault that a state did not have comes from the instruction's effect. -/
theorem effect_error_of_exec_fault {i : Instr} {s t : State} {f : Fault}
    (hnone : s.status.fault = none) (h : exec i s = .next t) (hf : t.status.fault = some f) :
    effect i s = .error f := by
  rcases exec_cases h with hok | ⟨g, herr, rfl⟩
  · rw [status_of_effect_ok hok, hnone] at hf
    cases hf
  · cases hf
    exact herr

theorem exec_of_effect_error {i : Instr} {s : State} {f : Fault} (h : effect i s = .error f) :
    exec i s = .next (FaultedFrom s f) := by
  rw [exec_eq_conclude, h]
  rfl

theorem exec_of_effect_ok {i : Instr} {s t : State} (h : effect i s = .ok t) :
    exec i s = .next t := by
  rw [exec_eq_conclude, h, conclude_ok]

/-- Settles O34: an access outside is the one source of MemoryFault. -/
theorem outOfRangeAccessFaults : Obligations.OutOfRangeAccessFaults := by
  intro s
  refine ⟨fun op p dst x hout => exec_of_effect_error (effect_of_accessOutside hout op),
    fun p addr hout => ?_, fun i t hnone h hf => ?_⟩
  · rcases printResult_cases s p addr with ⟨hle, _⟩ | ⟨_, e⟩
    · exact absurd hle hout
    · exact exec_of_effect_error (i := .print p addr) e
  · rcases effect_error_cases (effect_error_of_exec_fault hnone h hf) with ⟨_, hout⟩ | ⟨hne, _⟩ | hne
    · exact hout
    · cases hne
    · cases hne

/-! # Move and integer Divide -/

theorem operand_bytes_eq_leBytes (s : State) (p : Pod) (x : Operand) :
    x.bytes s p = leBytes p.width (operandValue s p x) := by
  have h := leBytes_le (x.bytes s p)
  rw [Operand.length_bytes, le_operand_bytes] at h
  exact h.symm

/-- Settles O35: the operand's bytes are those of its value, and Move writes them. -/
theorem moveStoresTheOperand : Obligations.MoveStoresTheOperand := by
  rintro s p dst x ⟨hdst, hx, hwf⟩
  rcases moveResult_cases s p dst x with ⟨_, _, e⟩ | ⟨hout, _⟩
  · rw [operand_bytes_eq_leBytes] at e
    exact ⟨_, exec_of_effect_ok ((effect_move s p dst x).trans e),
      storedAt_writeBytes hwf p dst _ (typedLength p x), rfl⟩
  · exact absurd hdst (hout.elim (absurd hx) Nat.not_le.2)

/-- With its accesses in the region an arithmetic body ends as its ALU result does. -/
theorem arithResult_of_inRegion {alu : Pod → Nat → Nat → AluResult} {s : State} {p : Pod}
    {dst : DataAddr} {x : Operand} {r : AluResult} (hdst : InRegion s p dst)
    (hx : OperandInRegion s p x) (hr : alu p (valueAt s p dst) (operandValue s p x) = r) :
    arithResult alu s p dst x = (resultBytes s p r).map fun bs => advance
      (countDraw { s with mem := writeBytes s.mem dst.toNat bs } r) (typedLength p x) := by
  subst hr
  rcases arithResult_cases alu s p dst x with ⟨bs, _, _, hbs, e⟩ | ⟨f, _, _, hf, e⟩ | ⟨hout, _⟩
  · rw [e, hbs]
    rfl
  · rw [e, hf]
    rfl
  · exact absurd hdst (hout.elim (absurd hx) Nat.not_le.2)

theorem aluDiv_of_unsigned {p : Pod} {n : Nat} (h : p.valueType = .unsigned n) (a b : Nat) :
    aluDiv p a b = if b = 0 then .fault .arithmeticFault else .value (a / b) := by
  simp only [aluDiv, h]

/-- R102: an integer Divide by zero inside the region meets ArithmeticFault. -/
theorem effect_of_dividesByZero {s : State} {i : Instr} (h : DividesByZero s i) :
    effect i s = .error .arithmeticFault := by
  obtain ⟨p, n, dst, x, rfl, hp, hx, hdst, hzero⟩ := h
  rw [effect_divide, arithResult_of_inRegion (r := .fault .arithmeticFault) hdst hx]
  · rfl
  · rw [aluDiv_of_unsigned hp, if_pos hzero]

/-- Settles O37: the two results of the integer division function. -/
theorem integerDivideTruncates : Obligations.IntegerDivideTruncates := by
  intro s p n dst x hp hready
  refine ⟨fun hb => ⟨?_, Nat.div_le_self _ _⟩, fun hb => ?_⟩
  · refine storesResult_of_aluOf_eq_value ⟨nofun, nofun⟩ hready ?_
    exact (aluDiv_of_unsigned hp _ _).trans (if_neg hb)
  · obtain ⟨hdst, hx, -⟩ := hready
    exact exec_of_effect_error (effect_of_dividesByZero ⟨p, n, dst, x, rfl, hp, hx, hdst, hb⟩)

/-- Settles O38: the inversion of faults one way, the division function the other. -/
theorem arithmeticFaultOnlyFromIntegerDivide : Obligations.ArithmeticFaultOnlyFromIntegerDivide := by
  intro i s t hnone h
  refine ⟨fun hf => ?_, fun hzero => ?_⟩
  · rcases effect_error_cases (effect_error_of_exec_fault hnone h hf) with ⟨hne, _⟩ | ⟨_, hzero⟩ | hne
    · cases hne
    · exact hzero
    · cases hne
  · cases (exec_of_effect_error (effect_of_dividesByZero hzero)).symm.trans h
    rfl

/-! # Compare -/

theorem exec_compare {s : State} {p : Pod} {dst : DataAddr} {x : Operand} (hdst : InRegion s p dst)
    (hx : OperandInRegion s p x) :
    exec (typedInstr .compare p dst x) s = .next { s with
      cmp := partialOrder p (valueAt s p dst) (operandValue s p x)
      ip := s.ip + typedLength p x } := by
  rcases compareResult_cases s p dst x with ⟨_, _, e⟩ | ⟨hout, _⟩
  · exact exec_of_effect_ok ((effect_compare s p dst x).trans e)
  · exact absurd hdst (hout.elim (absurd hx) Nat.not_le.2)

theorem compareValues_of_lt {a b : Int} (h : a < b) : compareValues a b = .less := if_pos h

theorem compareValues_self (a : Int) : compareValues a a = .equal := by simp [compareValues]

theorem compareValues_of_gt {a b : Int} (h : b < a) : compareValues a b = .greater := by
  simp [compareValues, Int.not_lt.2 h.le, h.ne']

/-- `compareValues` decides the order of two whole numbers. -/
theorem compareValues_spec (a b : Int) :
    (compareValues a b = .less ↔ a < b) ∧ (compareValues a b = .equal ↔ a = b) ∧
    (compareValues a b = .greater ↔ b < a) ∧ compareValues a b ≠ .unset := by
  rcases lt_trichotomy a b with h | rfl | h
  · simp [compareValues_of_lt h, h, h.ne, h.le]
  · simp [compareValues_self]
  · simp [compareValues_of_gt h, h, h.ne', h.le]

theorem partialOrder_of_unsigned {p : Pod} {n : Nat} (h : p.valueType = .unsigned n) (a b : Nat) :
    partialOrder p a b = compareValues a b := by
  simp only [partialOrder, h]

theorem partialOrder_of_float {p : Pod} {f : FloatFormat} (h : p.valueType = .float f) (a b : Nat) :
    partialOrder p a b = if isNaN f a || isNaN f b then .unset
      else compareValues (signedUnits f a) (signedUnits f b) := by
  simp only [partialOrder, h]

/-- Settles O49: on an integer Pod `cmp` gets the order of two naturals. -/
theorem integerCompareIsUnsigned : Obligations.IntegerCompareIsUnsigned := by
  intro s p n dst x hp hdst hx
  refine ⟨_, exec_compare hdst hx, ?_⟩
  rw [partialOrder_of_unsigned hp]
  obtain ⟨hless, hequal, hgreater, hunset⟩ :=
    compareValues_spec (valueAt s p dst : Int) (operandValue s p x : Int)
  exact ⟨hless.trans Int.ofNat_lt, hequal.trans Int.ofNat_inj, hgreater.trans Int.ofNat_lt, hunset⟩

/-- Settles O50: on a float Pod `cmp` is Unset for a NaN and else gets the order of two values. -/
theorem floatCompareIsIeee : Obligations.FloatCompareIsIeee := by
  intro s p f dst x hp hdst hx
  refine ⟨_, exec_compare hdst hx, ?_⟩
  rw [partialOrder_of_float hp]
  obtain ⟨hless, hequal, hgreater, hunset⟩ :=
    compareValues_spec (signedUnits f (valueAt s p dst)) (signedUnits f (operandValue s p x))
  split
  · next hnan =>
    exact ⟨by simpa using hnan, fun h => absurd rfl h⟩
  · next hnan =>
    refine ⟨⟨fun h => absurd h hunset, fun h => ?_⟩, fun _ => ⟨hless, hequal, hgreater⟩⟩
    exact absurd (by simpa using h) hnan

/-! # The jumps and Print -/

theorem jumpResult_of_taken {s : State} {taken : Bool} {g : Target} (ht : taken = true)
    (hle : g.toNat ≤ s.prog.length) : jumpResult s taken g = .ok { s with ip := g.toNat } := by
  simp [jumpResult, ht, hle]

theorem jumpResult_of_taken_beyond {s : State} {taken : Bool} {g : Target} (ht : taken = true)
    (hlt : s.prog.length < g.toNat) : jumpResult s taken g = .error .unexpectedEndOfProgram := by
  simp [jumpResult, ht, Nat.not_le.2 hlt]

theorem jumpResult_of_not_taken {s : State} {taken : Bool} (ht : taken = false) (g : Target) :
    jumpResult s taken g = .ok { s with ip := s.ip + 9 } := by
  simp [jumpResult, ht, advance]

/-- Settles O51: Jump is always taken, the others by their condition. -/
theorem takenJumpGoesToItsTarget : Obligations.TakenJumpGoesToItsTarget := by
  intro s g hle
  refine ⟨?_, fun hc => ?_, fun hc => ?_⟩
  · exact exec_of_effect_ok (i := .jump g) (jumpResult_of_taken rfl hle)
  · exact exec_of_effect_ok (i := .jumpIfEqual g) (jumpResult_of_taken (decide_eq_true hc) hle)
  · exact exec_of_effect_ok (i := .jumpIfLessThan g) (jumpResult_of_taken (decide_eq_true hc) hle)

/-- Settles O52: the target of a jump that is not taken is not checked. -/
theorem untakenJumpFallsThrough : Obligations.UntakenJumpFallsThrough := by
  intro s g
  refine ⟨fun hc => ?_, fun hc => ?_⟩
  · exact exec_of_effect_ok (i := .jumpIfEqual g) (jumpResult_of_not_taken (decide_eq_false hc) g)
  · exact exec_of_effect_ok (i := .jumpIfLessThan g) (jumpResult_of_not_taken (decide_eq_false hc) g)

/-- Settles O53: the target of a jump that is taken is checked against the program's length. -/
theorem jumpBeyondTheEndFaults : Obligations.JumpBeyondTheEndFaults := by
  intro s g hlt
  refine ⟨?_, fun hc => ?_, fun hc => ?_⟩
  · exact exec_of_effect_error (i := .jump g) (jumpResult_of_taken_beyond rfl hlt)
  · exact exec_of_effect_error (i := .jumpIfEqual g)
      (jumpResult_of_taken_beyond (decide_eq_true hc) hlt)
  · exact exec_of_effect_error (i := .jumpIfLessThan g)
      (jumpResult_of_taken_beyond (decide_eq_true hc) hlt)

/-- Settles O54: Print's read is in the region. -/
theorem printEmitsTheBytesAtAddr : Obligations.PrintEmitsTheBytesAtAddr := by
  intro s p addr hregion
  rcases printResult_cases s p addr with ⟨_, e⟩ | ⟨hlt, _⟩
  · exact exec_of_effect_ok (i := .print p addr) e
  · exact absurd hregion (Nat.not_le.2 hlt)

end Sys2Proof.Machine

namespace Sys2Proof.Machine

/-! # Float magnitudes and rounding

A magnitude is `k * 2 ^ fracBits + q` for a significand `q` of at most `fracBits + 1` bits and a scale
`k`, and stands for `q * 2 ^ k` units (`units_scaled`). So values grow with magnitudes, and rounding is
a division with remainder by the step `2 ^ k` around the value (93_implementation_defined.md G1, G2). -/

/-! ## The value of a magnitude -/

/-- Scale `k` and significand `q` are those of a magnitude: the significand fits, and has its leading
bit unless the scale is 0 (subnormals and the least normals). -/
def Scaled (f : FloatFormat) (k q : Nat) : Prop :=
  (k = 0 ∨ 2 ^ f.fracBits ≤ q) ∧ q < 2 ^ (f.fracBits + 1)

theorem units_of_exponent {f : FloatFormat} {e r : Nat} (he : e ≠ 0) (hr : r < 2 ^ f.fracBits) :
    units f (e * 2 ^ f.fracBits + r) = (2 ^ f.fracBits + r) * 2 ^ (e - 1) := by
  have hpos := Nat.two_pow_pos f.fracBits
  have hdiv : (e * 2 ^ f.fracBits + r) / 2 ^ f.fracBits = e := by
    rw [Nat.mul_comm, Nat.mul_add_div hpos, Nat.div_eq_of_lt hr, Nat.add_zero]
  have hmod : (e * 2 ^ f.fracBits + r) % 2 ^ f.fracBits = r := by
    rw [Nat.mul_comm, Nat.mul_add_mod, Nat.mod_eq_of_lt hr]
  simp [units, hdiv, hmod, he]

theorem units_of_lt {f : FloatFormat} {r : Nat} (hr : r < 2 ^ f.fracBits) : units f r = r := by
  simp [units, Nat.div_eq_of_lt hr, Nat.mod_eq_of_lt hr]

theorem units_scaled {f : FloatFormat} {k q : Nat} (h : Scaled f k q) :
    units f (k * 2 ^ f.fracBits + q) = q * 2 ^ k := by
  obtain ⟨hlead, hfits⟩ := h
  rw [pow_succ] at hfits
  rcases Nat.lt_or_ge q (2 ^ f.fracBits) with hlt | hge
  · have hk : k = 0 := hlead.resolve_right (Nat.not_le.2 hlt)
    simp [hk, units_of_lt hlt]
  · obtain ⟨r, rfl⟩ := Nat.exists_eq_add_of_le hge
    have hunits := units_of_exponent (e := k + 1) (r := r) (f := f) (by omega) (by omega)
    rw [Nat.succ_mul, Nat.add_assoc] at hunits
    simpa using hunits

/-- One step up from a significand, which may carry into the next scale. -/
theorem units_scaled_succ {f : FloatFormat} {k q : Nat} (h : Scaled f k q) :
    units f (k * 2 ^ f.fracBits + (q + 1)) = (q + 1) * 2 ^ k := by
  obtain ⟨hlead, hfits⟩ := h
  rcases Nat.lt_or_ge (q + 1) (2 ^ (f.fracBits + 1)) with hlt | hge
  · exact units_scaled ⟨hlead.imp_right Nat.le_succ_of_le, hlt⟩
  · have hq : q + 1 = 2 ^ (f.fracBits + 1) := Nat.le_antisymm hfits hge
    have hunits := units_of_exponent (e := k + 2) (r := 0) (f := f) (by omega)
      (Nat.two_pow_pos _)
    calc units f (k * 2 ^ f.fracBits + (q + 1))
        = units f ((k + 2) * 2 ^ f.fracBits + 0) := by
          congr 1
          rw [hq, pow_succ]
          ring
      _ = (2 ^ f.fracBits + 0) * 2 ^ (k + 1) := hunits
      _ = (q + 1) * 2 ^ k := by
          rw [hq]
          ring

/-- Every magnitude has a scale and a significand. -/
theorem exists_scaled (f : FloatFormat) (m : Nat) :
    ∃ k q, Scaled f k q ∧ m = k * 2 ^ f.fracBits + q := by
  have hr := Nat.mod_lt m (Nat.two_pow_pos f.fracBits)
  have hm := Nat.div_add_mod m (2 ^ f.fracBits)
  have hpow := pow_succ 2 f.fracBits
  cases he : m / 2 ^ f.fracBits with
  | zero =>
    rw [he] at hm
    exact ⟨0, m, ⟨.inl rfl, by omega⟩, by omega⟩
  | succ k =>
    refine ⟨k, 2 ^ f.fracBits + m % 2 ^ f.fracBits, ⟨.inr (Nat.le_add_right _ _), by omega⟩, ?_⟩
    rw [he, Nat.mul_succ, Nat.mul_comm] at hm
    omega

theorem units_strictMono (f : FloatFormat) : StrictMono (units f) := by
  refine strictMono_nat_of_lt_succ fun m => ?_
  obtain ⟨k, q, hscaled, rfl⟩ := exists_scaled f m
  rw [Nat.add_assoc, units_scaled hscaled, units_scaled_succ hscaled]
  exact Nat.mul_lt_mul_of_pos_right (Nat.lt_succ_self q) (Nat.two_pow_pos k)

/-- Settles O47: one step up raises the value, in every scale and across a carry. -/
theorem unitsStrictlyIncrease : Obligations.UnitsStrictlyIncrease :=
  fun f _ _ h => units_strictMono f h

/-! ## The nearest magnitude

`n / d` lies between the values of two neighbouring magnitudes `low` and `low + 1`. -/

/-- `n / d` lies at or above the value of `low` and below that of the next magnitude. -/
def Between (f : FloatFormat) (n d low : Nat) : Prop :=
  units f low * d ≤ n ∧ n < units f (low + 1) * d

theorem distance_eq (f : FloatFormat) (n d m : Nat) :
    distance f n d m = (((units f m * d : Nat) : Int) - n).natAbs := by
  simp [distance]

theorem units_mul_lt {f : FloatFormat} {d m q : Nat} (hd : 0 < d) (h : m < q) :
    units f m * d < units f q * d :=
  Nat.mul_lt_mul_of_pos_right (units_strictMono f h) hd

/-- Below the value, a lower magnitude is farther away. -/
theorem distance_lt_of_lt_below {f : FloatFormat} {n d m q : Nat} (hd : 0 < d) (hqm : q < m)
    (hm : units f m * d ≤ n) : distance f n d m < distance f n d q := by
  have hlt := units_mul_lt (f := f) hd hqm
  rw [distance_eq, distance_eq]
  omega

/-- Above the value, a higher magnitude is farther away. -/
theorem distance_lt_of_lt_above {f : FloatFormat} {n d m q : Nat} (hd : 0 < d) (hmq : m < q)
    (hm : n ≤ units f m * d) : distance f n d m < distance f n d q := by
  have hlt := units_mul_lt (f := f) hd hmq
  rw [distance_eq, distance_eq]
  omega

/-- Of `low` and the next magnitude the nearer one to `n / d`, or the even one if neither is nearer. -/
def nearestOf (f : FloatFormat) (n d low : Nat) : Nat :=
  if distance f n d low < distance f n d (low + 1) then low
  else if distance f n d (low + 1) < distance f n d low then low + 1
  else if low % 2 = 0 then low else low + 1

/-- Of all magnitudes, only the two neighbours of a value can be nearest to it. -/
theorem roundsToEven_nearestOf {f : FloatFormat} {n d low : Nat} (hd : 0 < d)
    (hbetween : Between f n d low) :
    RoundsToEven f n d (min (nearestOf f n d low) (infMagnitude f)) := by
  obtain ⟨hlow, hhigh⟩ := hbetween
  rcases Nat.lt_or_ge low (infMagnitude f) with hinside | hbeyond
  · have hle : nearestOf f n d low ≤ infMagnitude f := by
      unfold nearestOf
      split_ifs <;> omega
    rw [Nat.min_eq_left hle]
    refine ⟨hle, fun q hq => ?_⟩
    have hq : q < low ∨ q = low ∨ q = low + 1 ∨ low + 1 < q := by omega
    have hfar : (q < low → distance f n d low < distance f n d q) ∧
        (low + 1 < q → distance f n d (low + 1) < distance f n d q) :=
      ⟨fun h => distance_lt_of_lt_below hd h hlow, fun h => distance_lt_of_lt_above hd h hhigh.le⟩
    unfold nearestOf
    rcases hq with h | rfl | rfl | h <;> split_ifs <;> omega
  · have hle : infMagnitude f ≤ nearestOf f n d low := by
      unfold nearestOf
      split_ifs <;> omega
    rw [Nat.min_eq_right hle]
    have hinf : units f (infMagnitude f) * d ≤ n :=
      (Nat.mul_le_mul_right d ((units_strictMono f).monotone hbeyond)).trans hlow
    refine ⟨Nat.le_refl _, fun q hq => ?_⟩
    rcases Nat.lt_or_eq_of_le hq with hlt | rfl
    · have hfar := distance_lt_of_lt_below hd hlt hinf
      exact ⟨hfar.le, fun e => absurd e hfar.ne⟩
    · exact ⟨Nat.le_refl _, fun _ hne => absurd rfl hne⟩

/-- Two magnitudes cannot both be the even nearest one: both would be even, so one between them would
be nearer. -/
theorem roundsToEven_le {f : FloatFormat} {n d m q : Nat} (hd : 0 < d)
    (hm : RoundsToEven f n d m) (hq : RoundsToEven f n d q) : m ≤ q := by
  obtain ⟨hmInf, hmNear⟩ := hm
  obtain ⟨hqInf, hqNear⟩ := hq
  by_contra hlt
  obtain ⟨hmq, hmEven⟩ := hmNear q hqInf
  obtain ⟨hqm, hqEven⟩ := hqNear m hmInf
  have heq : distance f n d m = distance f n d q := Nat.le_antisymm hmq hqm
  have hm2 := hmEven heq (by omega)
  have hq2 := hqEven heq.symm (by omega)
  obtain ⟨hnear, -⟩ := hmNear (q + 1) (by omega)
  have hleft := units_mul_lt (f := f) hd (Nat.lt_add_one q)
  have hright := units_mul_lt (f := f) (m := q + 1) (q := m) hd (by omega)
  rw [distance_eq, distance_eq] at heq hnear
  omega

/-! ## `roundUnits` -/

/-- The scale that `roundUnits` works in and the whole number of its steps make a significand. -/
theorem scaled_of_div {f : FloatFormat} {n d k : Nat} (hk : k = Nat.log2 (n / d) - f.fracBits) :
    Scaled f k (n / (d * 2 ^ k)) := by
  rw [← Nat.div_div_eq_div_mul]
  have hlt : n / d < 2 ^ (Nat.log2 (n / d) + 1) := Nat.lt_log2_self
  refine ⟨?_, ?_⟩
  · rcases Nat.eq_zero_or_pos k with hzero | hpos
    · exact .inl hzero
    · right
      have hne : n / d ≠ 0 := fun e => by simp [e] at hk; omega
      rw [Nat.le_div_iff_mul_le (Nat.two_pow_pos k), ← pow_add,
        show f.fracBits + k = Nat.log2 (n / d) by omega]
      exact Nat.log2_self_le hne
  · rw [Nat.div_lt_iff_lt_mul (Nat.two_pow_pos k), ← pow_add]
    exact hlt.trans_le (Nat.pow_le_pow_right (by omega) (by omega))

theorem scaled_mod_two {f : FloatFormat} (hf : 1 ≤ f.fracBits) (k q : Nat) :
    (k * 2 ^ f.fracBits + q) % 2 = q % 2 := by
  obtain ⟨b, hb⟩ := Nat.exists_eq_add_of_le hf
  rw [hb, Nat.pow_add, pow_one, Nat.mul_left_comm, Nat.mul_add_mod]

/-- The neighbours below and above `n / d` are its quotient by the step `2 ^ k` and one more, and their
distances from it are the remainder and what is left of a step. -/
theorem neighbours_of_scaled {f : FloatFormat} {n d k q : Nat} (hd : 0 < d) (hscaled : Scaled f k q)
    (hq : n / (d * 2 ^ k) = q) :
    Between f n d (k * 2 ^ f.fracBits + q) ∧
    distance f n d (k * 2 ^ f.fracBits + q) = n % (d * 2 ^ k) ∧
    distance f n d (k * 2 ^ f.fracBits + q + 1) = d * 2 ^ k - n % (d * 2 ^ k) := by
  have hdm := Nat.div_add_mod n (d * 2 ^ k)
  have hrem := Nat.mod_lt n (Nat.mul_pos hd (Nat.two_pow_pos k))
  rw [hq] at hdm
  have hlow : units f (k * 2 ^ f.fracBits + q) * d = d * 2 ^ k * q := by
    rw [units_scaled hscaled]
    ring
  have hhigh : units f (k * 2 ^ f.fracBits + q + 1) * d = d * 2 ^ k * q + d * 2 ^ k := by
    rw [Nat.add_assoc, units_scaled_succ hscaled]
    ring
  refine ⟨⟨by omega, by omega⟩, ?_, ?_⟩
  · rw [distance_eq, hlow]
    omega
  · rw [distance_eq, hhigh]
    omega

/-- Comparing twice the remainder with the step finds the nearer neighbour. -/
theorem nearestOf_scaled {f : FloatFormat} {n d k q : Nat} (hf : 1 ≤ f.fracBits) (hd : 0 < d)
    (hscaled : Scaled f k q) (hq : n / (d * 2 ^ k) = q) :
    nearestOf f n d (k * 2 ^ f.fracBits + q) =
      k * 2 ^ f.fracBits + divRoundEven n (d * 2 ^ k) := by
  obtain ⟨-, hlow, hhigh⟩ := neighbours_of_scaled hd hscaled hq
  have hrem := Nat.mod_lt n (Nat.mul_pos hd (Nat.two_pow_pos k))
  rw [nearestOf, hlow, hhigh, scaled_mod_two hf, divRoundEven, hq]
  split_ifs <;> omega

/-- `roundUnits` answers a magnitude that IEEE 754's roundTiesToEven allows. -/
theorem roundsToEven_roundUnits {f : FloatFormat} (hf : 1 ≤ f.fracBits) (n : Nat) {d : Nat}
    (hd : 0 < d) : RoundsToEven f n d (roundUnits f n d) := by
  have hscaled := scaled_of_div (f := f) (n := n) (d := d) rfl
  obtain ⟨hbetween, -, -⟩ := neighbours_of_scaled hd hscaled rfl
  have hround := roundsToEven_nearestOf hd hbetween
  rwa [nearestOf_scaled hf hd hscaled rfl] at hround

/-- Settles O46: `roundUnits` answers such a magnitude, and there is only one. -/
theorem roundUnitsIsRoundTiesToEven : Obligations.RoundUnitsIsRoundTiesToEven := by
  intro f n d m hf hd
  have hround := roundsToEven_roundUnits hf n hd
  refine ⟨fun hm => ?_, fun e => e ▸ hround⟩
  exact Nat.le_antisymm (roundsToEven_le hd hm hround) (roundsToEven_le hd hround hm)

end Sys2Proof.Machine

namespace Sys2Proof.Machine

/-! # Float arithmetic

The classes of a pattern, then for each operation its value on finite operands and on infinities, when
it gives a NaN, and that its value is none; a value is stored as any ALU value is
(`storesResult_of_floatOf`). -/

theorem float_format_of_pod {p : Pod} {f : FloatFormat} (h : p.valueType = .float f) :
    f = binary32 ∨ f = binary64 := by
  cases p with
  | u8 | u16 | u32 | u64 => cases h
  | f32 => cases h; exact .inl rfl
  | f64 => cases h; exact .inr rfl

theorem fracBits_bounds {p : Pod} {f : FloatFormat} (h : p.valueType = .float f) :
    1 ≤ f.fracBits ∧ f.fracBits < 64 := by
  rcases float_format_of_pod h with rfl | rfl
  · decide
  · decide

/-! ## The classes of a pattern -/

theorem isNaN_iff {f : FloatFormat} {x : Nat} : isNaN f x = true ↔ infMagnitude f < magnitude f x := by
  simp [isNaN]

theorem isInf_iff {f : FloatFormat} {x : Nat} : isInf f x = true ↔ magnitude f x = infMagnitude f := by
  simp [isInf]

theorem isZero_iff {f : FloatFormat} {x : Nat} : isZero f x = true ↔ magnitude f x = 0 := by
  simp [isZero]

theorem not_isNaN_of_isInf {f : FloatFormat} {x : Nat} (h : isInf f x = true) :
    isNaN f x = false := by
  simp [isNaN, isInf_iff.1 h]

theorem not_isNaN_of_finite {f : FloatFormat} {x : Nat} (h : FinitePattern f x) :
    isNaN f x = false := by
  simp [isNaN, h.le]

theorem not_isInf_of_finite {f : FloatFormat} {x : Nat} (h : FinitePattern f x) :
    isInf f x = false := by
  simp [isInf, h.ne]

/-- A zero is finite in a format that has a finite pattern at all. -/
theorem finite_of_isZero {f : FloatFormat} {a b : Nat} (ha : FinitePattern f a)
    (hb : isZero f b = true) : FinitePattern f b := by
  have := isZero_iff.1 hb
  omega

theorem not_isZero_of_isInf_of_finite {f : FloatFormat} {a b : Nat} (ha : isInf f a = true)
    (hb : FinitePattern f b) : isZero f a = false := by
  rw [← Bool.not_eq_true, isZero_iff, isInf_iff.1 ha]
  omega

theorem isInf_or_finite {f : FloatFormat} {x : Nat} (h : isNaN f x = false) :
    isInf f x = true ∨ FinitePattern f x := by
  rw [← Bool.not_eq_true, isNaN_iff] at h
  rw [isInf_iff]
  omega

/-- An infinity is no zero in a format that has a nonzero pattern other than its NaNs. -/
theorem not_isZero_of_isInf {f : FloatFormat} {a b : Nat} (ha : isInf f a = true)
    (hnan : isNaN f b = false) (hzero : isZero f b = false) : isZero f a = false := by
  rw [← Bool.not_eq_true, isZero_iff, isInf_iff.1 ha]
  rw [← Bool.not_eq_true, isZero_iff] at hzero
  rw [← Bool.not_eq_true, isNaN_iff] at hnan
  omega

theorem isNaN_pattern {f : FloatFormat} {m : Nat} (s : Bool) (h : m ≤ infMagnitude f) :
    isNaN f (pattern f s m) = false := by
  have hlt := h.trans_lt (infMagnitude_lt f)
  simp [isNaN, magnitude_pattern s hlt, h]

@[simp] theorem magnitude_negate (f : FloatFormat) (x : Nat) :
    magnitude f (negate f x) = magnitude f x := magnitude_pattern _ (magnitude_lt f x)

@[simp] theorem signBit_negate (f : FloatFormat) (x : Nat) :
    signBit f (negate f x) = !signBit f x := signBit_pattern _ (magnitude_lt f x)

@[simp] theorem isNaN_negate (f : FloatFormat) (x : Nat) : isNaN f (negate f x) = isNaN f x := by
  simp [isNaN]

@[simp] theorem isInf_negate (f : FloatFormat) (x : Nat) : isInf f (negate f x) = isInf f x := by
  simp [isInf]

theorem signedUnits_negate (f : FloatFormat) (x : Nat) :
    signedUnits f (negate f x) = -signedUnits f x := by
  cases hs : signBit f x <;> simp [signedUnits, hs]

/-! ## The NaNs that can be drawn -/

/-- The fraction of a drawn NaN is not 0 and fits its field. -/
theorem nanFraction_bounds {f : FloatFormat} (hf : 1 ≤ f.fracBits) (raw : Nat) :
    0 < (if raw % 2 ^ f.fracBits = 0 then 1 else raw % 2 ^ f.fracBits) ∧
    (if raw % 2 ^ f.fracBits = 0 then 1 else raw % 2 ^ f.fracBits) < 2 ^ f.fracBits := by
  have hmod := Nat.mod_lt raw (Nat.two_pow_pos f.fracBits)
  have hone := Nat.one_lt_two_pow (n := f.fracBits) (by omega)
  split_ifs <;> omega

theorem isNaN_nanPattern {f : FloatFormat} (hf : 1 ≤ f.fracBits) (raw : BitVec 64) :
    isNaN f (nanPattern f raw) = true ∧ nanPattern f raw < 2 ^ (magnitudeBits f + 1) := by
  obtain ⟨hpos, hlt⟩ := nanFraction_bounds hf raw.toNat
  have hinf := infMagnitude_add f
  have hmag : infMagnitude f + (if raw.toNat % 2 ^ f.fracBits = 0 then 1
      else raw.toNat % 2 ^ f.fracBits) < 2 ^ magnitudeBits f := by omega
  refine ⟨?_, pattern_lt _ hmag⟩
  rw [isNaN_iff, nanPattern, magnitude_pattern _ hmag]
  omega

/-- A NaN pattern comes from the raw bits that hold its sign above its fraction. -/
theorem exists_raw_of_isNaN {f : FloatFormat} (hf : f.fracBits < 64) {v : Nat}
    (hv : v < 2 ^ (magnitudeBits f + 1)) (hnan : isNaN f v = true) :
    ∃ raw, nanPattern f raw = v := by
  have hmag := magnitude_lt f v
  have hinf := infMagnitude_add f
  obtain ⟨fraction, hfraction⟩ := Nat.exists_eq_add_of_lt (isNaN_iff.1 hnan)
  have hfits : fraction + 1 < 2 ^ f.fracBits := by omega
  have hdiv : (2 ^ f.fracBits * (signBit f v).toNat + (fraction + 1)) / 2 ^ f.fracBits =
      (signBit f v).toNat := by
    rw [Nat.mul_add_div (Nat.two_pow_pos _), Nat.div_eq_of_lt hfits, Nat.add_zero]
  have hmod : (2 ^ f.fracBits * (signBit f v).toNat + (fraction + 1)) % 2 ^ f.fracBits =
      fraction + 1 := by
    rw [Nat.mul_add_mod, Nat.mod_eq_of_lt hfits]
  have hraw : 2 ^ f.fracBits * (signBit f v).toNat + (fraction + 1) < 2 ^ 64 := by
    have hle : 2 ^ (f.fracBits + 1) ≤ 2 ^ 64 := Nat.pow_le_pow_right (by omega) (by omega)
    rw [pow_succ] at hle
    have hsign := Nat.mul_le_mul_left (2 ^ f.fracBits) (Bool.toNat_le (signBit f v))
    omega
  refine ⟨BitVec.ofNat 64 (2 ^ f.fracBits * (signBit f v).toNat + (fraction + 1)), ?_⟩
  rw [nanPattern, BitVec.toNat_ofNat, Nat.mod_eq_of_lt hraw, hdiv, hmod]
  have hsign : ((signBit f v).toNat % 2 == 1) = signBit f v := by cases signBit f v <;> rfl
  rw [hsign, if_neg (Nat.succ_ne_zero fraction), ← Nat.add_assoc, ← hfraction]
  exact pattern_signBit_magnitude hv

/-- Settles O48: what is drawn has a nonzero fraction, and every sign and nonzero fraction is drawn. -/
theorem nanPatternsAreExactlyTheNans : Obligations.NanPatternsAreExactlyTheNans := by
  intro p f hp
  obtain ⟨hpos, hlt⟩ := fracBits_bounds hp
  exact ⟨isNaN_nanPattern hpos, fun v hv hnan => exists_raw_of_isNaN hlt hv hnan⟩

/-! ## The operations, case by case -/

theorem floatAdd_of_inf_left {f : FloatFormat} {a b : Nat} (ha : isInf f a = true)
    (hb : isNaN f b = false) (hsign : isInf f b = true → signBit f b = signBit f a) :
    floatAdd f a b = some (pattern f (signBit f a) (infMagnitude f)) := by
  have hclash : (isInf f b && signBit f a != signBit f b) = false := by
    cases hinf : isInf f b with
    | false => rfl
    | true => simp [hsign hinf]
  simp [floatAdd, not_isNaN_of_isInf ha, hb, ha, hclash]

theorem floatAdd_of_inf_right {f : FloatFormat} {a b : Nat} (ha : FinitePattern f a)
    (hb : isInf f b = true) : floatAdd f a b = some (pattern f (signBit f b) (infMagnitude f)) := by
  simp [floatAdd, not_isNaN_of_finite ha, not_isInf_of_finite ha, not_isNaN_of_isInf hb, hb]

theorem floatAdd_of_finite {f : FloatFormat} {a b : Nat} (ha : FinitePattern f a)
    (hb : FinitePattern f b) {sum : Int} (hsum : sum = signedUnits f a + signedUnits f b) :
    floatAdd f a b = if sum = 0 then some (pattern f (signBit f a && signBit f b) 0)
      else some (pattern f (sum < 0) (roundUnits f sum.natAbs 1)) := by
  simp [floatAdd, not_isNaN_of_finite ha, not_isInf_of_finite ha, not_isNaN_of_finite hb,
    not_isInf_of_finite hb, hsum]

theorem floatMul_of_inf {f : FloatFormat} {a b : Nat} (hinf : isInf f a = true ∨ isInf f b = true)
    (hnanA : isNaN f a = false) (hnanB : isNaN f b = false) (hzeroA : isZero f a = false)
    (hzeroB : isZero f b = false) :
    floatMul f a b = some (pattern f (signBit f a ^^ signBit f b) (infMagnitude f)) := by
  simp [floatMul, hnanA, hnanB, hzeroA, hzeroB, hinf]

theorem floatMul_of_finite {f : FloatFormat} {a b : Nat} (ha : FinitePattern f a)
    (hb : FinitePattern f b) :
    floatMul f a b = some (pattern f (signBit f a ^^ signBit f b)
      (roundUnits f (units f (magnitude f a) * units f (magnitude f b)) (2 ^ unitScale f))) := by
  simp [floatMul, not_isNaN_of_finite ha, not_isInf_of_finite ha, not_isNaN_of_finite hb,
    not_isInf_of_finite hb]

theorem floatDiv_of_inf_left {f : FloatFormat} {a b : Nat} (ha : isInf f a = true)
    (hb : FinitePattern f b) :
    floatDiv f a b = some (pattern f (signBit f a ^^ signBit f b) (infMagnitude f)) := by
  simp [floatDiv, not_isNaN_of_isInf ha, ha, not_isNaN_of_finite hb, not_isInf_of_finite hb]

theorem floatDiv_of_inf_right {f : FloatFormat} {a b : Nat} (ha : FinitePattern f a)
    (hb : isInf f b = true) :
    floatDiv f a b = some (pattern f (signBit f a ^^ signBit f b) 0) := by
  simp [floatDiv, not_isNaN_of_finite ha, not_isInf_of_finite ha, not_isNaN_of_isInf hb, hb]

theorem floatDiv_of_zero_right {f : FloatFormat} {a b : Nat} (ha : FinitePattern f a)
    (hzeroA : isZero f a = false) (hzeroB : isZero f b = true) :
    floatDiv f a b = some (pattern f (signBit f a ^^ signBit f b) (infMagnitude f)) := by
  have hb := finite_of_isZero ha hzeroB
  simp [floatDiv, not_isNaN_of_finite ha, not_isInf_of_finite ha, not_isNaN_of_finite hb,
    not_isInf_of_finite hb, hzeroA, hzeroB]

theorem floatDiv_of_finite {f : FloatFormat} {a b : Nat} (ha : FinitePattern f a)
    (hb : FinitePattern f b) (hzero : isZero f b = false) :
    floatDiv f a b = some (pattern f (signBit f a ^^ signBit f b)
      (roundUnits f (units f (magnitude f a) * 2 ^ unitScale f) (units f (magnitude f b)))) := by
  simp [floatDiv, not_isNaN_of_finite ha, not_isInf_of_finite ha, not_isNaN_of_finite hb,
    not_isInf_of_finite hb, hzero]

/-! ## NaN results -/

/-- What an operation gave: IEEE 754's NaN where it has one, and elsewhere a pattern that is none. -/
def NanOrPattern (op : TypedOp) (f : FloatFormat) (a b : Nat) (result : Option Nat) : Prop :=
  (NanCase op f a b ∧ result = none) ∨
  (¬ NanCase op f a b ∧ ∃ sign m, m ≤ infMagnitude f ∧ result = some (pattern f sign m))

/-- Every operation gives a NaN for a NaN operand, so its other operands are what is to be looked at. -/
theorem nanOrPattern_of_operands {op : TypedOp} {f : FloatFormat} {a b : Nat} {result : Option Nat}
    (hnone : (isNaN f a || isNaN f b) = true → result = none)
    (h : isNaN f a = false → isNaN f b = false → NanOrPattern op f a b result) :
    NanOrPattern op f a b result := by
  cases ha : isNaN f a with
  | true => exact .inl ⟨.inl ha, hnone (by simp [ha])⟩
  | false =>
    cases hb : isNaN f b with
    | true => exact .inl ⟨.inr (.inl hb), hnone (by simp [hb])⟩
    | false => exact h ha hb

theorem nanOrPattern_floatAdd (f : FloatFormat) (a b : Nat) :
    NanOrPattern .add f a b (floatAdd f a b) := by
  refine nanOrPattern_of_operands (fun hnan => by simp only [floatAdd, hnan, if_true])
    fun ha hb => ?_
  rcases isInf_or_finite ha with hinfA | hfinA
  · by_cases hclash : isInf f b = true ∧ signBit f a ≠ signBit f b
    · exact .inl ⟨.inr (.inr ⟨hinfA, hclash⟩), by simp [floatAdd, ha, hb, hinfA, hclash]⟩
    · refine .inr ⟨by simpa [NanCase, ha, hb, hinfA] using hclash, _, _, Nat.le_refl _,
        floatAdd_of_inf_left hinfA hb fun hinfB => ?_⟩
      by_contra hsign
      exact hclash ⟨hinfB, Ne.symm hsign⟩
  · have hnot : ¬ NanCase .add f a b := by simp [NanCase, ha, hb, not_isInf_of_finite hfinA]
    rcases isInf_or_finite hb with hinfB | hfinB
    · exact .inr ⟨hnot, _, _, Nat.le_refl _, floatAdd_of_inf_right hfinA hinfB⟩
    · rw [floatAdd_of_finite hfinA hfinB rfl]
      split_ifs
      · exact .inr ⟨hnot, _, _, Nat.zero_le _, rfl⟩
      · exact .inr ⟨hnot, _, _, roundUnits_le _ _ _, rfl⟩

/-- The NaNs of a subtraction are those of adding the negated operand. -/
theorem nanCase_subtract_iff {f : FloatFormat} {a b : Nat} :
    NanCase .subtract f a b ↔ NanCase .add f a (negate f b) := by
  simp [NanCase]

theorem nanOrPattern_floatSub (f : FloatFormat) (a b : Nat) :
    NanOrPattern .subtract f a b (floatSub f a b) := by
  have h := nanOrPattern_floatAdd f a (negate f b)
  rwa [NanOrPattern, ← nanCase_subtract_iff] at h

theorem nanOrPattern_floatMul (f : FloatFormat) (a b : Nat) :
    NanOrPattern .multiply f a b (floatMul f a b) := by
  refine nanOrPattern_of_operands (fun hnan => by simp only [floatMul, hnan, if_true])
    fun ha hb => ?_
  by_cases hinf : isInf f a = true ∨ isInf f b = true
  · by_cases hzero : isZero f a = true ∨ isZero f b = true
    · refine .inl ⟨.inr (.inr ?_), by simp [floatMul, ha, hb, hinf, hzero]⟩
      rw [← Bool.not_eq_true, isNaN_iff] at ha hb
      simp only [isInf_iff, isZero_iff] at hinf hzero ⊢
      omega
    · obtain ⟨hzeroA, hzeroB⟩ : isZero f a = false ∧ isZero f b = false := by simpa using hzero
      exact .inr ⟨by simp [NanCase, ha, hb, hzeroA, hzeroB], _, _, Nat.le_refl _,
        floatMul_of_inf hinf ha hb hzeroA hzeroB⟩
  · obtain ⟨hinfA, hinfB⟩ : isInf f a = false ∧ isInf f b = false := by simpa using hinf
    have hfinA := (isInf_or_finite ha).resolve_left (by simp [hinfA])
    have hfinB := (isInf_or_finite hb).resolve_left (by simp [hinfB])
    exact .inr ⟨by simp [NanCase, ha, hb, hinfA, hinfB], _, _, roundUnits_le _ _ _,
      floatMul_of_finite hfinA hfinB⟩

theorem nanOrPattern_floatDiv (f : FloatFormat) (a b : Nat) :
    NanOrPattern .divide f a b (floatDiv f a b) := by
  refine nanOrPattern_of_operands (fun hnan => by simp only [floatDiv, hnan, if_true])
    fun ha hb => ?_
  rcases isInf_or_finite ha with hinfA | hfinA
  · rcases isInf_or_finite hb with hinfB | hfinB
    · exact .inl ⟨.inr (.inr (.inr ⟨hinfA, hinfB⟩)), by simp [floatDiv, ha, hb, hinfA, hinfB]⟩
    · exact .inr ⟨by simp [NanCase, ha, hb, not_isZero_of_isInf_of_finite hinfA hfinB,
        not_isInf_of_finite hfinB], _, _, Nat.le_refl _, floatDiv_of_inf_left hinfA hfinB⟩
  · have hinfA := not_isInf_of_finite hfinA
    rcases isInf_or_finite hb with hinfB | hfinB
    · exact .inr ⟨by simp [NanCase, ha, hb, not_isZero_of_isInf_of_finite hinfB hfinA, hinfA],
        _, _, Nat.zero_le _, floatDiv_of_inf_right hfinA hinfB⟩
    · cases hzeroB : isZero f b with
      | false =>
        exact .inr ⟨by simp [NanCase, ha, hb, hinfA, hzeroB], _, _, roundUnits_le _ _ _,
          floatDiv_of_finite hfinA hfinB hzeroB⟩
      | true =>
        cases hzeroA : isZero f a with
        | false =>
          exact .inr ⟨by simp [NanCase, ha, hb, hinfA, hzeroA], _, _, Nat.le_refl _,
            floatDiv_of_zero_right hfinA hzeroA hzeroB⟩
        | true =>
          exact .inl ⟨.inr (.inr (.inl ⟨hzeroA, hzeroB⟩)), by
            simp [floatDiv, ha, hb, hinfA, not_isInf_of_finite hfinB, hzeroA, hzeroB]⟩

/-- The float operation of an arithmetic opcode; Move and Compare use none. -/
def floatOf : TypedOp → FloatFormat → Nat → Nat → Option Nat
  | .add => floatAdd
  | .subtract => floatSub
  | .multiply => floatMul
  | .divide => floatDiv
  | .move => fun _ _ b => some b
  | .compare => fun _ a _ => some a

theorem nanOrPattern_floatOf {op : TypedOp} (hop : Arithmetic op) (f : FloatFormat) (a b : Nat) :
    NanOrPattern op f a b (floatOf op f a b) := by
  cases op with
  | move => exact absurd rfl hop.1
  | add => exact nanOrPattern_floatAdd f a b
  | subtract => exact nanOrPattern_floatSub f a b
  | multiply => exact nanOrPattern_floatMul f a b
  | divide => exact nanOrPattern_floatDiv f a b
  | compare => exact absurd rfl hop.2

/-! ## Storing a float result -/

theorem aluOf_of_float {op : TypedOp} (hop : Arithmetic op) {p : Pod} {f : FloatFormat}
    (hp : p.valueType = .float f) (a b : Nat) :
    aluOf op p a b = floatResult f (floatOf op f a b) := by
  cases op with
  | move => exact absurd rfl hop.1
  | add => simp only [aluOf, aluAdd, hp, floatOf]
  | subtract => simp only [aluOf, aluSub, hp, floatOf]
  | multiply => simp only [aluOf, aluMul, hp, floatOf]
  | divide => simp only [aluOf, aluDiv, hp, floatOf]
  | compare => exact absurd rfl hop.2

/-- An operation that gives a value stores that value. -/
theorem storesResult_of_floatOf {s : State} {op : TypedOp} {p : Pod} {f : FloatFormat}
    {dst : DataAddr} {x : Operand} {v : Nat} (hop : Arithmetic op) (hp : p.valueType = .float f)
    (hready : OperandsReady s p dst x)
    (hv : floatOf op f (valueAt s p dst) (operandValue s p x) = some v) :
    StoresResult s op p dst x v := by
  refine storesResult_of_aluOf_eq_value hop hready ?_
  rw [aluOf_of_float hop hp, hv, floatResult]

/-- An operation that gives a NaN stores the next one drawn. -/
theorem stores_drawn_nan {s : State} {op : TypedOp} {p : Pod} {f : FloatFormat} {dst : DataAddr}
    {x : Operand} (hop : Arithmetic op) (hp : p.valueType = .float f)
    (hready : OperandsReady s p dst x)
    (hv : floatOf op f (valueAt s p dst) (operandValue s p x) = none) :
    ∃ t, exec (typedInstr op p dst x) s = .next t ∧
      StoredAt s t p dst (nanPattern f (Config.nanDraw s.nanDraws)) (s.ip + typedLength p x) := by
  obtain ⟨hdst, hx, hwf⟩ := hready
  have halu : aluOf op p (valueAt s p dst) (operandValue s p x) = .nan f := by
    rw [aluOf_of_float hop hp, hv, floatResult]
  have heffect := (effect_arithmetic hop s p dst x).trans (arithResult_of_inRegion hdst hx halu)
  exact ⟨_, exec_of_effect_ok heffect, storedAt_writeBytes hwf p dst _ (typedLength p x)⟩

/-- Settles O39: a value that an operation gives is no NaN, and what is drawn is one. -/
theorem floatResultIsNanExactlyInNanCases : Obligations.FloatResultIsNanExactlyInNanCases := by
  intro s op p f dst x hop hp hready
  rcases nanOrPattern_floatOf hop f (valueAt s p dst) (operandValue s p x) with
    ⟨hcase, hnone⟩ | ⟨hcase, sign, m, hm, hsome⟩
  · obtain ⟨t, hexec, hstored⟩ := stores_drawn_nan hop hp hready hnone
    obtain ⟨hnan, hlt⟩ := isNaN_nanPattern (fracBits_bounds hp).1 (Config.nanDraw s.nanDraws)
    exact ⟨t, _, hexec, hstored, hlt, iff_of_true hnan hcase, fun h => absurd hcase h⟩
  · obtain ⟨t, hexec, hstored, hdraws⟩ := storesResult_of_floatOf hop hp hready hsome
    refine ⟨t, _, hexec, hstored, pattern_lt sign (hm.trans_lt (infMagnitude_lt f)), ?_,
      fun _ => hdraws⟩
    exact iff_of_false (by simp [isNaN_pattern sign hm]) hcase

/-! ## Rounding the exact result -/

theorem roundsToEven_of_pod {p : Pod} {f : FloatFormat} (hp : p.valueType = .float f) (n : Nat)
    {d : Nat} (hd : 0 < d) : RoundsToEven f n d (roundUnits f n d) :=
  roundsToEven_roundUnits (fracBits_bounds hp).1 n hd

theorem arithmetic_add : Arithmetic .add := ⟨nofun, nofun⟩
theorem arithmetic_subtract : Arithmetic .subtract := ⟨nofun, nofun⟩
theorem arithmetic_multiply : Arithmetic .multiply := ⟨nofun, nofun⟩
theorem arithmetic_divide : Arithmetic .divide := ⟨nofun, nofun⟩

/-- Settles O40: the two results of adding finite patterns. -/
theorem floatAddRoundsTheExactSum : Obligations.FloatAddRoundsTheExactSum := by
  intro s p f dst x hp hready ha hb sum hsum
  have hadd := floatAdd_of_finite ha hb hsum
  refine ⟨fun hne => ⟨_, roundsToEven_of_pod hp sum.natAbs Nat.one_pos, ?_⟩, fun hzero => ?_⟩
  · exact storesResult_of_floatOf arithmetic_add hp hready (hadd.trans (if_neg hne))
  · exact storesResult_of_floatOf arithmetic_add hp hready (hadd.trans (if_pos hzero))

/-- The difference of finite patterns is the sum with the negated one. -/
theorem floatSub_of_finite {f : FloatFormat} {a b : Nat} (ha : FinitePattern f a)
    (hb : FinitePattern f b) {diff : Int} (hdiff : diff = signedUnits f a - signedUnits f b) :
    floatSub f a b = if diff = 0 then some (pattern f (signBit f a && !signBit f b) 0)
      else some (pattern f (diff < 0) (roundUnits f diff.natAbs 1)) := by
  have hneg : FinitePattern f (negate f b) := by rwa [FinitePattern, magnitude_negate]
  have hsum : diff = signedUnits f a + signedUnits f (negate f b) := by
    rw [signedUnits_negate, hdiff, Int.sub_eq_add_neg]
  rw [floatSub, floatAdd_of_finite ha hneg hsum, signBit_negate]

/-- Settles O41: the two results of subtracting finite patterns. -/
theorem floatSubtractRoundsTheExactDifference :
    Obligations.FloatSubtractRoundsTheExactDifference := by
  intro s p f dst x hp hready ha hb diff hdiff
  have hsub := floatSub_of_finite ha hb hdiff
  refine ⟨fun hne => ⟨_, roundsToEven_of_pod hp diff.natAbs Nat.one_pos, ?_⟩, fun hzero => ?_⟩
  · exact storesResult_of_floatOf arithmetic_subtract hp hready (hsub.trans (if_neg hne))
  · exact storesResult_of_floatOf arithmetic_subtract hp hready (hsub.trans (if_pos hzero))

/-- Settles O42: the exact product is a fraction whose divisor is the scale of a unit. -/
theorem floatMultiplyRoundsTheExactProduct : Obligations.FloatMultiplyRoundsTheExactProduct := by
  intro s p f dst x hp hready ha hb
  exact ⟨_, roundsToEven_of_pod hp _ (Nat.two_pow_pos _),
    storesResult_of_floatOf arithmetic_multiply hp hready (floatMul_of_finite ha hb)⟩

/-- A pattern that is no zero stands for a positive number of units. -/
theorem units_pos_of_not_isZero {f : FloatFormat} {x : Nat} (h : isZero f x = false) :
    0 < units f (magnitude f x) := by
  rw [← Bool.not_eq_true, isZero_iff] at h
  exact Nat.zero_lt_of_lt (units_strictMono f (Nat.pos_of_ne_zero h))

/-- Settles O43: the exact quotient is a fraction whose divisor is a nonzero value. -/
theorem floatDivideRoundsTheExactQuotient : Obligations.FloatDivideRoundsTheExactQuotient := by
  intro s p f dst x hp hready ha hb hzero
  exact ⟨_, roundsToEven_of_pod hp _ (units_pos_of_not_isZero hzero),
    storesResult_of_floatOf arithmetic_divide hp hready (floatDiv_of_finite ha hb hzero)⟩

/-! ## Infinities and zero divisors -/

/-- Settles O44: Subtract's clauses are Add's for the negated operand. -/
theorem floatAddSubtractInfinities : Obligations.FloatAddSubtractInfinities := by
  rintro s p f dst x hp hready a b rfl rfl
  refine ⟨fun ha hb hsign => ?_, fun ha hb => ?_, fun ha hb hsign => ?_, fun ha hb => ?_⟩
  · exact storesResult_of_floatOf arithmetic_add hp hready (floatAdd_of_inf_left ha hb hsign)
  · exact storesResult_of_floatOf arithmetic_add hp hready (floatAdd_of_inf_right ha hb)
  · refine storesResult_of_floatOf arithmetic_subtract hp hready
      (floatAdd_of_inf_left ha (by rwa [isNaN_negate]) fun hinf => ?_)
    rw [isInf_negate] at hinf
    rw [signBit_negate]
    exact Bool.not_eq.2 (hsign hinf)
  · have hsub := floatAdd_of_inf_right ha (b := negate f (operandValue s p x)) (by rwa [isInf_negate])
    rw [signBit_negate] at hsub
    exact storesResult_of_floatOf arithmetic_subtract hp hready hsub

/-- Settles O45: each clause is one case of the two operations. -/
theorem floatMultiplyDivideInfinitiesAndZeros :
    Obligations.FloatMultiplyDivideInfinitiesAndZeros := by
  rintro s p f dst x hp hready a b rfl rfl
  refine ⟨fun ha hnan hzero => ?_, fun hb hnan hzero => ?_, fun ha hb => ?_, fun ha hb => ?_,
    fun ha hzeroA hzeroB => ?_⟩
  · exact storesResult_of_floatOf arithmetic_multiply hp hready
      (floatMul_of_inf (.inl ha) (not_isNaN_of_isInf ha) hnan (not_isZero_of_isInf ha hnan hzero) hzero)
  · exact storesResult_of_floatOf arithmetic_multiply hp hready
      (floatMul_of_inf (.inr hb) hnan (not_isNaN_of_isInf hb) hzero (not_isZero_of_isInf hb hnan hzero))
  · exact storesResult_of_floatOf arithmetic_divide hp hready (floatDiv_of_inf_left ha hb)
  · exact storesResult_of_floatOf arithmetic_divide hp hready (floatDiv_of_inf_right ha hb)
  · exact storesResult_of_floatOf arithmetic_divide hp hready
      (floatDiv_of_zero_right ha hzeroA hzeroB)

end Sys2Proof.Machine
